-- ==== Sys2Proof/Word.lean ====
section
/-! DEFINITION. The byte, the only word the data path has (R8), and the six-byte Address operand (R9). -/

namespace Sys2Proof

/-- R8: an unsigned integer in 0 .. 255, bit 0 least significant. -/
abbrev Byte := BitVec 8

/-- R9: exactly six bytes `a[0] .. a[5]` in derivation order; the field `a<k>` is the spec's `a[k]`. -/
structure Address where
  a0 : Byte
  a1 : Byte
  a2 : Byte
  a3 : Byte
  a4 : Byte
  a5 : Byte
  deriving DecidableEq, Repr, Inhabited

end Sys2Proof
end

