-- ==== Sys2Proof/Config.lean ====
section
/-! DEFINITION. The constants the spec fixes (R5, R6), the one open width `IDLE_W` (R7, D7), and the free values of
R82: results the spec calls "any value". -/

namespace Sys2Proof.Config

/-- R5 `PRE`: the preamble byte. -/
abbrev pre : Byte := 0xFE#8

/-- R5 `SYNC`: the sync byte, at two places of a frame. -/
abbrev sync : Byte := 0x68#8

/-- R5 `TERM`: the terminator byte. -/
abbrev term : Byte := 0x16#8

/-- R5 `OBF_K`: the obfuscation offset. -/
abbrev obfK : Byte := 0x33#8

/-- R5 `ADDR_LEN`: bytes in an address, the value `rem` takes on entering `IN_ADDRESS` (R97). -/
abbrev addrLen : Nat := 6

/-- R5 `PAY_MAX`: the largest payload length. -/
abbrev payMax : Nat := 255

/-- R6 `BUF_CAP`: the capacity of the frame buffer; a theorem of the model, not a check (R19). -/
abbrev bufCap : Nat := 267

/-- R82: the fewest bytes `DEC` can find its fields in, after stripping. -/
abbrev decMin : Nat := 12

/-- R7, D7 `IDLE_W`: the width of `idle` and `idle_max`. The spec leaves it OPEN with default 16, and the model takes
the default (DESIGN CHOICE, unsafe: log entry 1). -/
abbrev idleW : Nat := 16

/-- R82, D17: the address `DEC` returns for an operand of fewer than 12 bytes after stripping. A free value, a
function of the operand because `DEC` is one (R65, R75); DESIGN CHOICE, safe: log entry 2. -/
opaque shortAddress : List Byte → Address

/-- R82, D17: the control byte `DEC` returns for such an operand. A free value (log entry 2). -/
opaque shortControl : List Byte → Byte

/-- R82, D17: the payload `DEC` returns for such an operand. A free value (log entry 2). -/
opaque shortPayload : List Byte → List Byte

end Sys2Proof.Config

namespace Sys2Proof

/-- R13, R73: a count of idle polls, `IDLE_W` bits, unsigned. -/
abbrev IdleCount := BitVec Config.idleW

end Sys2Proof
end

