-- ==== Sys2Proof/Syntax.lean ====
section
/-! DEFINITION. The operations of the block (R2, R55): one constructor per row of spec/opcode_table.json. -/

namespace Sys2Proof

/-- One operation with its operands, which are values and not register names (R14). `RXBYTE` has one constructor per
running state, because its dispatch key is the pair (`op`, `st`) (R56). -/
inductive Instr where
  /-- R72 `NOP`. -/
  | nop
  /-- R63 `REV6 a`. -/
  | rev6 (a : Address)
  /-- R66 `OBF b`. -/
  | obf (b : Byte)
  /-- R67 `DEOBF w`. -/
  | deobf (w : Byte)
  /-- R69 `CKSUM s`. -/
  | cksum (s : List Byte)
  /-- R71 `CKVFY s c`. -/
  | ckvfy (s : List Byte) (c : Byte)
  /-- R76 `ENC a c n p`; `p` has exactly `n` bytes (R78, checked by `Instr.wf`). -/
  | enc (a : Address) (c : Byte) (n : Byte) (p : List Byte)
  /-- R80 `DEC f`. -/
  | dec (f : List Byte)
  /-- R92 `RXSTART m`. -/
  | rxstart (m : IdleCount)
  /-- R97 `RXBYTE b` in `AWAIT_START`. -/
  | rxbyteAwaitStart (b : Byte)
  /-- R98 `RXBYTE b` in `IN_ADDRESS`. -/
  | rxbyteInAddress (b : Byte)
  /-- R99 `RXBYTE b` in `AWAIT_SECOND_SYNC`. -/
  | rxbyteAwaitSecondSync (b : Byte)
  /-- R100 `RXBYTE b` in `IN_CONTROL`. -/
  | rxbyteInControl (b : Byte)
  /-- R101 `RXBYTE b` in `IN_LENGTH`. -/
  | rxbyteInLength (b : Byte)
  /-- R102 `RXBYTE b` in `IN_PAYLOAD`. -/
  | rxbyteInPayload (b : Byte)
  /-- R103 `RXBYTE b` in `IN_CHECKSUM`. -/
  | rxbyteInChecksum (b : Byte)
  /-- R104 `RXBYTE b` in `IN_EOF`. -/
  | rxbyteInEof (b : Byte)
  /-- R106 `RXIDLE`. -/
  | rxidle
  /-- R57: selector `0xB`, reserved. -/
  | reservedB
  /-- R57: selector `0xC`, reserved. -/
  | reservedC
  /-- R57: selector `0xD`, reserved. -/
  | reservedD
  /-- R57: selector `0xE`, reserved. -/
  | reservedE
  /-- R57: selector `0xF`, reserved. -/
  | reservedF
  deriving DecidableEq, Repr

end Sys2Proof
end

