-- ==== Sys2Proof/WellFormed.lean ====
section
/-! DEFINITION. What the types of `Instr` do not already enforce: the payload of `ENC` has exactly `n` bytes. -/

namespace Sys2Proof

/-- R76, R78: `ENC`'s payload `p` has exactly `n` bytes, so at most 255. Every other operand is enforced by its type
(R56); `m = 0` of `RXSTART` is expressible and refused when it is run (R93), and a reserved selector is expressible
and refused when it is run (R57). -/
def Instr.wf (i : Instr) : Bool :=
  match i with
  | .nop => true
  | .rev6 _ => true
  | .obf _ => true
  | .deobf _ => true
  | .cksum _ => true
  | .ckvfy _ _ => true
  | .enc _ _ n p => p.length == n.toNat
  | .dec _ => true
  | .rxstart _ => true
  | .rxbyteAwaitStart _ => true
  | .rxbyteInAddress _ => true
  | .rxbyteAwaitSecondSync _ => true
  | .rxbyteInControl _ => true
  | .rxbyteInLength _ => true
  | .rxbyteInPayload _ => true
  | .rxbyteInChecksum _ => true
  | .rxbyteInEof _ => true
  | .rxidle => true
  | .reservedB => true
  | .reservedC => true
  | .reservedD => true
  | .reservedE => true
  | .reservedF => true

end Sys2Proof
end

