-- ==== Sys2Proof/Decode.lean ====
section
/-! DEFINITION. Reading an operation from a presentation, and writing one.

A presentation is the dispatch byte of R56 (`st` in bits 7:4, `op` in bits 3:0) followed by the operand bytes. The
dispatch byte is the spec's. How the operands are laid out in bytes is part of the open parameter `PINMAP` (R37, D4):
the layout here is the model's (DESIGN CHOICE, log entry 3) and no rule depends on it. A byte is one byte; an address is
its six bytes `a[0]` first; `m` is two bytes, the low one first; `n` comes before the `n` bytes of `p`; a byte sequence
of any length is a strobe `01` before each of its bytes and a strobe `00` after the last. -/

namespace Sys2Proof

/-- Why the decoder reads no operation from a presentation. -/
inductive DecodeError where
  /-- There is no dispatch byte. -/
  | nothingPresented
  /-- The presentation ends before its operands do. -/
  | operandMissing
  /-- A strobe of a byte sequence is neither `00` nor `01`. -/
  | badStrobe (b : Byte)
  /-- R95: `op = 9` with `st` halted (0, 9 or 10); the block has no such step and no row of the table. -/
  | rxbyteWhileHalted (st : BitVec 4)
  /-- R62: `op = 9` with `st` one of 11 to 15, which are not states. -/
  | notAState (st : BitVec 4)
  deriving DecidableEq, Repr

/-- What the decoder answers: an operation and the bytes after it, or a reason by name. -/
abbrev Decoded := Except DecodeError (Instr × List Byte)

/-- R56: the dispatch byte, `st` in bits 7:4 and `op` in bits 3:0. -/
def dispatchByte (st op : BitVec 4) : Byte := st ++ op

/-- R56: the operation selector of a dispatch byte, bits 3:0. -/
def selectorOf (d : Byte) : BitVec 4 := d.extractLsb' 0 4

/-- R56: the `st` field of a dispatch byte, bits 7:4. -/
def stFieldOf (d : Byte) : BitVec 4 := d.extractLsb' 4 4

/-- Operand of format `FB`: one byte. -/
def takeByte (bs : List Byte) : Except DecodeError (Byte × List Byte) :=
  match bs with
  | b :: rest => .ok (b, rest)
  | [] => .error .operandMissing

/-- Operand of format `FA`: six bytes, `a[0]` first. -/
def takeAddress (bs : List Byte) : Except DecodeError (Address × List Byte) :=
  match bs with
  | a0 :: a1 :: a2 :: a3 :: a4 :: a5 :: rest => .ok (⟨a0, a1, a2, a3, a4, a5⟩, rest)
  | _ => .error .operandMissing

/-- Operand of format `FM`: `IDLE_W` bits in two bytes, low byte first (log entries 1 and 3). -/
def takeCount (bs : List Byte) : Except DecodeError (IdleCount × List Byte) :=
  match bs with
  | lo :: hi :: rest => .ok (BitVec.ofNat Config.idleW (lo.toNat + 256 * hi.toNat), rest)
  | _ => .error .operandMissing

/-- Operand of format `FS`: strobe `01` and a byte, any number of times, then strobe `00`. -/
def takeSeq : List Byte → Except DecodeError (List Byte × List Byte)
  | [] => .error .operandMissing
  | [s] => if s = 0x00#8 then .ok ([], []) else if s = 0x01#8 then .error .operandMissing else .error (.badStrobe s)
  | s :: b :: rest =>
    if s = 0x00#8 then .ok ([], b :: rest)
    else if s = 0x01#8 then (takeSeq rest).map fun r => (b :: r.1, r.2)
    else .error (.badStrobe s)

/-- The last operand of format `FE`: exactly `n` bytes (R78). -/
def takeBytes : Nat → List Byte → Except DecodeError (List Byte × List Byte)
  | 0, bs => .ok ([], bs)
  | _ + 1, [] => .error .operandMissing
  | n + 1, b :: rest => (takeBytes n rest).map fun r => (b :: r.1, r.2)

/-- R56: `op = 9`, the row of the current state. -/
def decodeRxbyte (st : BitVec 4) (bs : List Byte) : Decoded :=
  match st.toNat with
  | 1 => (takeByte bs).map fun r => (.rxbyteAwaitStart r.1, r.2)
  | 2 => (takeByte bs).map fun r => (.rxbyteInAddress r.1, r.2)
  | 3 => (takeByte bs).map fun r => (.rxbyteAwaitSecondSync r.1, r.2)
  | 4 => (takeByte bs).map fun r => (.rxbyteInControl r.1, r.2)
  | 5 => (takeByte bs).map fun r => (.rxbyteInLength r.1, r.2)
  | 6 => (takeByte bs).map fun r => (.rxbyteInPayload r.1, r.2)
  | 7 => (takeByte bs).map fun r => (.rxbyteInChecksum r.1, r.2)
  | 8 => (takeByte bs).map fun r => (.rxbyteInEof r.1, r.2)
  | 0 => .error (.rxbyteWhileHalted st)
  | 9 => .error (.rxbyteWhileHalted st)
  | 10 => .error (.rxbyteWhileHalted st)
  | _ => .error (.notAState st)

/-- Format `FSB`: a byte sequence and a byte. -/
def decodeCkvfy (bs : List Byte) : Decoded :=
  match takeSeq bs with
  | .error e => .error e
  | .ok (s, r) => (takeByte r).map fun q => (.ckvfy s q.1, q.2)

/-- Format `FE`: an address, the control byte, `n` and `n` bytes. -/
def decodeEnc (bs : List Byte) : Decoded :=
  match takeAddress bs with
  | .ok (a, c :: n :: r) => (takeBytes n.toNat r).map fun q => (.enc a c n q.1, q.2)
  | _ => .error .operandMissing

/-- R55: the operation that the selector names, its operands taken from the bytes after the dispatch byte. -/
def decodeOp (st op : BitVec 4) (bs : List Byte) : Decoded :=
  match op.toNat with
  | 0x0 => .ok (.nop, bs)
  | 0x1 => (takeAddress bs).map fun r => (.rev6 r.1, r.2)
  | 0x2 => (takeByte bs).map fun r => (.obf r.1, r.2)
  | 0x3 => (takeByte bs).map fun r => (.deobf r.1, r.2)
  | 0x4 => (takeSeq bs).map fun r => (.cksum r.1, r.2)
  | 0x5 => decodeCkvfy bs
  | 0x6 => decodeEnc bs
  | 0x7 => (takeSeq bs).map fun r => (.dec r.1, r.2)
  | 0x8 => (takeCount bs).map fun r => (.rxstart r.1, r.2)
  | 0x9 => decodeRxbyte st bs
  | 0xA => .ok (.rxidle, bs)
  | 0xB => .ok (.reservedB, bs)
  | 0xC => .ok (.reservedC, bs)
  | 0xD => .ok (.reservedD, bs)
  | 0xE => .ok (.reservedE, bs)
  | _ => .ok (.reservedF, bs)

/-- One operation from the front of any bytes, with the bytes after it. Bits 7:4 of the dispatch byte select a row of
`RXBYTE` and are read by no other operation (R55, R56). -/
def decode (bs : List Byte) : Decoded :=
  match bs with
  | [] => .error .nothingPresented
  | d :: rest => decodeOp (stFieldOf d) (selectorOf d) rest

/-- The six bytes of an address, `a[0]` first. -/
def encodeAddress (a : Address) : List Byte := [a.a0, a.a1, a.a2, a.a3, a.a4, a.a5]

/-- The two bytes of an idle maximum, low byte first. -/
def encodeCount (m : IdleCount) : List Byte := [BitVec.ofNat 8 m.toNat, BitVec.ofNat 8 (m.toNat / 256)]

/-- A byte sequence with its strobes. -/
def encodeSeq : List Byte → List Byte
  | [] => [0x00#8]
  | b :: s => 0x01#8 :: b :: encodeSeq s

/-- The presentation of a well-formed operation. Where its row does not constrain bits 7:4 they are written 0. -/
def encode (i : Instr) : List Byte :=
  match i with
  | .nop => [dispatchByte 0 0x0]
  | .rev6 a => dispatchByte 0 0x1 :: encodeAddress a
  | .obf b => [dispatchByte 0 0x2, b]
  | .deobf w => [dispatchByte 0 0x3, w]
  | .cksum s => dispatchByte 0 0x4 :: encodeSeq s
  | .ckvfy s c => dispatchByte 0 0x5 :: (encodeSeq s ++ [c])
  | .enc a c n p => dispatchByte 0 0x6 :: (encodeAddress a ++ c :: n :: p)
  | .dec f => dispatchByte 0 0x7 :: encodeSeq f
  | .rxstart m => dispatchByte 0 0x8 :: encodeCount m
  | .rxbyteAwaitStart b => [dispatchByte 1 0x9, b]
  | .rxbyteInAddress b => [dispatchByte 2 0x9, b]
  | .rxbyteAwaitSecondSync b => [dispatchByte 3 0x9, b]
  | .rxbyteInControl b => [dispatchByte 4 0x9, b]
  | .rxbyteInLength b => [dispatchByte 5 0x9, b]
  | .rxbyteInPayload b => [dispatchByte 6 0x9, b]
  | .rxbyteInChecksum b => [dispatchByte 7 0x9, b]
  | .rxbyteInEof b => [dispatchByte 8 0x9, b]
  | .rxidle => [dispatchByte 0 0xA]
  | .reservedB => [dispatchByte 0 0xB]
  | .reservedC => [dispatchByte 0 0xC]
  | .reservedD => [dispatchByte 0 0xD]
  | .reservedE => [dispatchByte 0 0xE]
  | .reservedF => [dispatchByte 0 0xF]

/-- The low `nbits` bits of `w` as bytes, bits 7:0 first. -/
def wordBytes (nbits w : Nat) : List Byte :=
  (List.range ((nbits + 7) / 8)).map fun k => BitVec.ofNat 8 ((w % 2 ^ nbits) / 256 ^ k)

/-- A table word as a presentation: its bytes, then operand bytes of zeros, as many as the longest operation whose
operands are all zero has (`ENC` with `n = 0`: six, one and one). -/
def tableWordBytes (nbits w : Nat) : List Byte := wordBytes nbits w ++ List.replicate 8 0#8

/-- The operation the decoder reads from a word numbered as spec/opcode_table.json numbers it. -/
def decodeTableWord (nbits w : Nat) : Option Instr :=
  match decode (tableWordBytes nbits w) with
  | .ok (i, _) => some i
  | .error _ => none

end Sys2Proof
end

