-- ==== Sys2Proof/Machine/State.lean ====
section
/-! DEFINITION. The machine's state as plain data: the five elements of R13, and beside them the model's own account of
the block's surroundings (what the host issues, what the transport answers, what the last step returned); the reasons a
step can stop; the state after reset. -/

namespace Sys2Proof.Machine

/-- R15: the eleven values of the sequencing register `st`. Values 11 to 15 are not states and have no name here. -/
inductive St where
  | off
  | awaitStart
  | inAddress
  | awaitSecondSync
  | inControl
  | inLength
  | inPayload
  | inChecksum
  | inEof
  | done
  | noFrame
  deriving DecidableEq, Repr

/-- R25: what the host can read of the state. -/
inductive StatusReg where
  | rstat
  | rrem
  | rlen
  | ridle
  | ridlemax
  | rbuf (i : Nat)
  deriving DecidableEq, Repr

/-- R14, R20: a result is a value returned with the operation, not state of the block. -/
inductive Result where
  /-- The step returns nothing. -/
  | none
  /-- `REV6` (R63). -/
  | address (r : Address)
  /-- `OBF`, `DEOBF`, `CKSUM` (R66, R67, R69), and the one-byte status registers (R25). -/
  | byte (b : Byte)
  /-- `CKVFY` (R71). -/
  | valid (v : Bool)
  /-- `ENC` (R77). -/
  | frame (f : List Byte)
  /-- `DEC` (R80). -/
  | decoded (a : Address) (c : Byte) (p : List Byte) (valid : Bool)
  /-- `RLEN` (R25), nine bits. -/
  | length (n : BitVec 9)
  /-- `RIDLE`, `RIDLEMAX` (R25). -/
  | count (n : IdleCount)
  deriving DecidableEq, Repr

/-- R40, R124: everything that can move the block comes in one total order, one at a time; a turn says who is next. -/
inductive Turn where
  /-- The host issues its next operation (R55). -/
  | host
  /-- The transport is polled (R34). -/
  | poll
  /-- The host reads the status view (R25). -/
  | status (r : StatusReg)
  /-- `RESET` is applied from outside (R135). -/
  | reset
  deriving DecidableEq, Repr

/-- The whole state. The first five fields are all the architectural state there is (R13). The other four are the
MODEL's own: R29 makes the stream of operations and the transport's answers parameters of the step, and `Host.Core`'s
step takes a state alone, so they stand here as data (log entry 4). -/
structure State where
  /-- R15, R16: where the reassembler is inside a run, or how the last run ended. -/
  st : St
  /-- R22: bytes still to accumulate in the current counted field. -/
  rem : Byte
  /-- R18, R31: the frame buffer; the byte at address `i` is the list's `i`-th element (log entry 5). -/
  buf : List Byte
  /-- R23: consecutive idle polls since the last byte or since `RXSTART`. -/
  idle : IdleCount
  /-- R24: the number of consecutive idle polls that ends a run. -/
  idleMax : IdleCount
  /-- The model's own: who is next, in the total order of R40. -/
  turns : List Turn
  /-- The model's own: the presentations the host will issue, one after another, as bytes (log entry 3). -/
  hostOps : List Byte
  /-- The model's own (R26, R34): what the transport answers to the polls to come, `none` for "zero bytes available". -/
  transport : List (Option Byte)
  /-- The model's own (R14): what the last step returned. Every step writes it anew, so it latches nothing (R20). -/
  result : Result
  deriving DecidableEq, Repr

/-- R119: no operation of the block raises an exception, traps or stops the block, so there is no fault. -/
inductive Fault
  deriving DecidableEq, Repr

/-- Why a step is refused: the situations to which the spec gives no meaning (`refuse`, R11, R123). Refusing is safe:
nothing is claimed of the hardware there. -/
inductive Refusal where
  /-- The instruction of this mnemonic has no meaning in the model. Raised by no arm of `exec`. Safe. -/
  | notModelled (mnemonic : String)
  /-- R57, U4: a reserved selector `0xB` to `0xF`. Raised by `RESERVED_B` to `RESERVED_F`. Safe. -/
  | reservedSelector (op : BitVec 4)
  /-- R78, U1: `ENC` whose payload is not exactly `n` bytes; no presentation decodes to one. Raised by `ENC`. Safe. -/
  | payloadLength (n : Byte) (len : Nat)
  /-- R93(a), U5: `RXSTART` with `m = 0`. Raised by `RXSTART`. Safe. -/
  | idleMaxZero
  /-- R93(b), U6: `RXSTART` while a run is in progress. Raised by `RXSTART`. Safe. -/
  | runInProgress
  /-- R56: a row of `RXBYTE` while another running state's row is the one that applies; the decoder, which reads `st`,
  never selects it. Raised by the rows of `RXBYTE`. Safe. -/
  | rowDoesNotApply (row st : St)
  /-- R25, U9: reading `RBUF[i]` with `i >= len(buf)`. Raised by a read of the status view. Safe. -/
  | beyondBuffer (i : Nat)
  /-- R34, R55: the host presents `RXBYTE` or `RXIDLE`, which only a poll's outcome issues. Raised by the fetch. Safe. -/
  | pollOutcomeFromHost (op : BitVec 4)
  /-- The bytes presented are no operation. Raised by the fetch. Safe. -/
  | undecodable (why : DecodeError)
  deriving DecidableEq, Repr

/-- What an operation answers. -/
abbrev Answer := Host.Outcome State Fault Refusal

/-- R27, R135: the block after `RESET`, with nothing issued yet and nothing returned. -/
def State.reset : State where
  st := .off
  rem := 0#8
  buf := []
  idle := 0
  idleMax := 1
  turns := []
  hostOps := []
  transport := []
  result := .none

end Sys2Proof.Machine
end

