-- ==== Sys2Proof/Machine/Operands.lean ====
section
/-! DEFINITION. The numbering of `st`, the arithmetic of R12, and the parts of a frame that the codec operations take as
operands (R10, R81 to R86). -/

namespace Sys2Proof.Machine

/-- R15: the 4-bit value of `st`. -/
def stCode (st : St) : BitVec 4 :=
  match st with
  | .off => 0
  | .awaitStart => 1
  | .inAddress => 2
  | .awaitSecondSync => 3
  | .inControl => 4
  | .inLength => 5
  | .inPayload => 6
  | .inChecksum => 7
  | .inEof => 8
  | .done => 9
  | .noFrame => 10

/-- R15, R62: the state a 4-bit value names; none for 11 to 15. -/
def stOfCode (c : BitVec 4) : Option St :=
  match c.toNat with
  | 0 => some .off
  | 1 => some .awaitStart
  | 2 => some .inAddress
  | 3 => some .awaitSecondSync
  | 4 => some .inControl
  | 5 => some .inLength
  | 6 => some .inPayload
  | 7 => some .inChecksum
  | 8 => some .inEof
  | 9 => some .done
  | 10 => some .noFrame
  | _ => none

/-- R12: `(a + b) mod 256`. -/
def add8 (a b : Byte) : Byte := a + b

/-- R12: `(a - b) mod 256`. -/
def sub8 (a b : Byte) : Byte := a - b

/-- R12, R69: the sum of the bytes modulo 256, 0 for the empty sequence. -/
def sum8 : List Byte → Byte
  | [] => 0
  | b :: s => add8 b (sum8 s)

/-- R63: `r[k] = a[5 - k]`. -/
def rev6 (a : Address) : Address := ⟨a.a5, a.a4, a.a3, a.a2, a.a1, a.a0⟩

/-- R66: `(b + 0x33) mod 256`. -/
def obfByte (b : Byte) : Byte := add8 b Config.obfK

/-- R67: `(w - 0x33) mod 256`. -/
def deobfByte (w : Byte) : Byte := sub8 w Config.obfK

/-- R10: the bytes of an address as a sequence, `a[0]` first. -/
def addressBytes (a : Address) : List Byte := [a.a0, a.a1, a.a2, a.a3, a.a4, a.a5]

/-- R10: `s[i]`; used only where `i < len(s)`. -/
def byteAt (s : List Byte) (i : Nat) : Byte := s.getD i 0

/-- R10: `s[i..j]`, both ends included, empty when `j < i`. -/
def slice (s : List Byte) (i j : Nat) : List Byte := (s.drop i).take (j + 1 - i)

/-- R81: every leading `0xFE` removed, and no other byte. -/
def stripPreamble (f : List Byte) : List Byte := f.dropWhile (· == Config.pre)

/-- R83: the six bytes `g[1..6]`, in wire order. -/
def wireAddress (g : List Byte) : Address :=
  ⟨byteAt g 1, byteAt g 2, byteAt g 3, byteAt g 4, byteAt g 5, byteAt g 6⟩

/-- R77: `body`, the bytes the checksum covers. -/
def frameBody (a : Address) (c n : Byte) (p : List Byte) : List Byte :=
  [Config.sync] ++ addressBytes (rev6 a) ++ [Config.sync, c, n] ++ p.map obfByte

/-- R77: the encoded frame `f`. -/
def encodeFrame (a : Address) (c n : Byte) (p : List Byte) : List Byte :=
  [Config.pre, Config.pre] ++ frameBody a c n p ++ [sum8 (frameBody a c n p), Config.term]

end Sys2Proof.Machine
end

