-- ==== Sys2Proof/Machine/Flags.lean ====
section
/-! DEFINITION. The four status bits, which are functions of `st` (R17, R21), the result bit `valid` (R71, R86), and the
words of the status view (R25). -/

namespace Sys2Proof.Machine

/-- R17: the states in which the reassembler consumes polls, values 1 to 8. -/
def stRunning (st : St) : Bool :=
  match st with
  | .off => false
  | .awaitStart => true
  | .inAddress => true
  | .awaitSecondSync => true
  | .inControl => true
  | .inLength => true
  | .inPayload => true
  | .inChecksum => true
  | .inEof => true
  | .done => false
  | .noFrame => false

/-- R17, R21: `running`, which is also the output `rx_ready`. -/
def running (s : State) : Bool := stRunning s.st

/-- R21: `done`. -/
def doneFlag (s : State) : Bool := s.st == .done

/-- R21: `noframe`. -/
def noframeFlag (s : State) : Bool := s.st == .noFrame

/-- R21: `off`. -/
def offFlag (s : State) : Bool := s.st == .off

/-- R71: the result bit `valid` of a checksum comparison. -/
def checksumValid (s : List Byte) (c : Byte) : Bool := sum8 s == c

/-- R25 `RSTAT`: `st` in bits 3:0, `running` 4, `done` 5, `noframe` 6, `off` 7. -/
def rstat (s : State) : BitVec 8 :=
  BitVec.ofBool (offFlag s) ++ BitVec.ofBool (noframeFlag s) ++ BitVec.ofBool (doneFlag s)
    ++ BitVec.ofBool (running s) ++ stCode s.st

/-- R25 `RLEN`: `len(buf)` in nine bits. -/
def rlen (s : State) : BitVec 9 := BitVec.ofNat 9 s.buf.length

end Sys2Proof.Machine
end

