-- ==== Sys2Proof/Machine/Ops.lean ====
section
/-! DEFINITION. The named operations on the state that the meanings share. The block takes no exceptions (R119): its one
failure that changes state is the time-out (R127), which is the operation `timeOut` here. -/

namespace Sys2Proof.Machine

/-- R14: the value a step returns; it replaces whatever the step before returned. -/
def returning (s : State) (r : Result) : State := { s with result := r }

/-- R31, R32: the byte at address `i` of the frame buffer, none at `len(buf)` and beyond. -/
def readBuf (s : State) (i : Nat) : Option Byte := s.buf[i]?

/-- R31: the frame buffer as (address, byte) cells, addresses from `i` up (log entry 5). -/
def cellsFrom (i : Nat) : List Byte → List Host.Cell
  | [] => []
  | b :: bs => (i, b) :: cellsFrom (i + 1) bs

/-- The canonical form of a list of cells: addresses strictly rising. -/
def cellsRise : List Host.Cell → Bool
  | [] => true
  | [_] => true
  | c :: d :: rest => decide (c.1 < d.1) && cellsRise (d :: rest)

/-- The form of the memory holds. An unlisted address reads as no value, so no cell equals what it reads as. -/
def Memory.wf (buf : List Byte) : Bool := cellsRise (cellsFrom 0 buf)

/-- R96, "acc": `BufAppend(b)` (R11, R18) with the values that the row gives `rem` and `st`. -/
def accumulate (s : State) (b : Byte) (rem : Byte) (st : St) : State :=
  { s with buf := s.buf ++ [b], rem := rem, st := st }

/-- R98, R102: a byte of a counted field; on reaching 0 the state moves on to `next`, else it stays. -/
def countDown (s : State) (b : Byte) (next : St) : State :=
  accumulate s b (s.rem - 1) (if s.rem - 1 = 0 then next else s.st)

/-- R94: what every `RXBYTE` does first. -/
def clearIdle (s : State) : State := { s with idle := 0 }

/-- R56, R94, R95: one row of `RXBYTE`. In its own state it clears `idle` and has its effect; while halted there is no
step and nothing changes; in another running state another row applies and this one has no meaning. -/
def onRow (row : St) (effect : State → State) (s : State) : Answer :=
  if s.st = row then .next (returning (effect (clearIdle s)) .none)
  else if running s then .refused (.rowDoesNotApply row s.st)
  else .next (returning s .none)

/-- R92: what `RXSTART m` writes. -/
def beginRun (s : State) (m : IdleCount) : State :=
  { s with st := .awaitStart, buf := [], rem := 0, idle := 0, idleMax := m }

/-- R106, R127 `E_NOFRAME`: the run ends, the partial frame is discarded. -/
def timeOut (s : State) : State :=
  { s with st := .noFrame, buf := [], rem := 0, idle := 0 }

/-- R106: one idle poll that is not the `idle_max`-th. -/
def countIdle (s : State) : State := { s with idle := s.idle + 1 }

/-- R27, R135: `RESET`; what the host and the transport hold is untouched. -/
def applyReset (s : State) : State :=
  { s with
    st := State.reset.st
    rem := State.reset.rem
    buf := State.reset.buf
    idle := State.reset.idle
    idleMax := State.reset.idleMax }

/-- R25: the value of one register of the status view; `RBUF[i]` beyond the buffer has none. -/
def readStatus (r : StatusReg) (s : State) : Except Refusal Result :=
  match r with
  | .rstat => .ok (.byte (rstat s))
  | .rrem => .ok (.byte s.rem)
  | .rlen => .ok (.length (rlen s))
  | .ridle => .ok (.count s.idle)
  | .ridlemax => .ok (.count s.idleMax)
  | .rbuf i =>
    match readBuf s i with
    | some b => .ok (.byte b)
    | none => .error (.beyondBuffer i)

end Sys2Proof.Machine
end

