-- ==== Sys2Proof/Machine/Codec.lean ====
section
/-! DEFINITION. The codec operations `ENC` and `DEC` (41_codec_ops.md). -/

namespace Sys2Proof.Machine

/-- R77; R78, D18: a payload that is not exactly `n` bytes cannot be presented, and is refused. -/
def execEnc (a : Address) (c n : Byte) (p : List Byte) (s : State) : Answer :=
  if p.length = n.toNat then .next (returning s (.frame (encodeFrame a c n p)))
  else .refused (.payloadLength n p.length)

/-- R83 to R86: the fields of a stripped operand `g` of at least 12 bytes, found by position, and the checksum test. -/
def decodeFields (g : List Byte) : Result :=
  .decoded (rev6 (wireAddress g)) (byteAt g 8) ((slice g 10 (g.length - 3)).map deobfByte)
    (checksumValid (slice g 0 (g.length - 3)) (byteAt g (g.length - 2)))

/-- R82 `E_SHORT`: `valid = 0`; the other results are free values of the operand (log entry 2). -/
def decodeShort (f : List Byte) : Result :=
  .decoded (Config.shortAddress f) (Config.shortControl f) (Config.shortPayload f) false

/-- R81 to R86, in that order. -/
def decodeFrame (f : List Byte) : Result :=
  if (stripPreamble f).length < Config.decMin then decodeShort f else decodeFields (stripPreamble f)

/-- R80. -/
def execDec (f : List Byte) (s : State) : Answer := .next (returning s (decodeFrame f))

end Sys2Proof.Machine
end

