-- ==== Sys2Proof/Machine/Primitives.lean ====
section
/-! DEFINITION. The codec primitives and `NOP` (40_codec_primitives.md): pure functions of their operands (R65). -/

namespace Sys2Proof.Machine

/-- R72. -/
def execNop (s : State) : Answer := .next (returning s .none)

/-- R63. -/
def execRev6 (a : Address) (s : State) : Answer := .next (returning s (.address (rev6 a)))

/-- R66. -/
def execObf (b : Byte) (s : State) : Answer := .next (returning s (.byte (obfByte b)))

/-- R67. -/
def execDeobf (w : Byte) (s : State) : Answer := .next (returning s (.byte (deobfByte w)))

/-- R69. -/
def execCksum (q : List Byte) (s : State) : Answer := .next (returning s (.byte (sum8 q)))

/-- R71. -/
def execCkvfy (q : List Byte) (c : Byte) (s : State) : Answer := .next (returning s (.valid (checksumValid q c)))

end Sys2Proof.Machine
end

