-- ==== Sys2Proof/Machine/Reassembler.lean ====
section
/-! DEFINITION. The reassembler operations `RXSTART`, `RXBYTE` (one row per running state) and `RXIDLE`
(42_reassembler.md). -/

namespace Sys2Proof.Machine

/-- R92; R93: refused for `m = 0` and while a run is in progress. -/
def execRxstart (m : IdleCount) (s : State) : Answer :=
  if m = 0 then .refused .idleMaxZero
  else if running s then .refused .runInProgress
  else .next (returning (beginRun s m) .none)

/-- R97: hunting for the first sync; any other byte is discarded. -/
def execRxbyteAwaitStart (b : Byte) (s : State) : Answer :=
  onRow .awaitStart
    (fun s => if b = Config.sync then accumulate s b (BitVec.ofNat 8 Config.addrLen) .inAddress else s) s

/-- R98. -/
def execRxbyteInAddress (b : Byte) (s : State) : Answer :=
  onRow .inAddress (fun s => countDown s b .awaitSecondSync) s

/-- R99: any byte is taken as the second sync. -/
def execRxbyteAwaitSecondSync (b : Byte) (s : State) : Answer :=
  onRow .awaitSecondSync (fun s => accumulate s b s.rem .inControl) s

/-- R100. -/
def execRxbyteInControl (b : Byte) (s : State) : Answer :=
  onRow .inControl (fun s => accumulate s b s.rem .inLength) s

/-- R101: the one data-dependent branch; a length of 0 skips `IN_PAYLOAD`. -/
def execRxbyteInLength (b : Byte) (s : State) : Answer :=
  onRow .inLength (fun s => if b = 0 then accumulate s b s.rem .inChecksum else accumulate s b b .inPayload) s

/-- R102. -/
def execRxbyteInPayload (b : Byte) (s : State) : Answer :=
  onRow .inPayload (fun s => countDown s b .inChecksum) s

/-- R103: any byte is taken as the checksum; nothing is compared. -/
def execRxbyteInChecksum (b : Byte) (s : State) : Answer :=
  onRow .inChecksum (fun s => accumulate s b s.rem .inEof) s

/-- R104: any byte is taken as the terminator and completes the frame. -/
def execRxbyteInEof (b : Byte) (s : State) : Answer :=
  onRow .inEof (fun s => accumulate s b s.rem .done) s

/-- R106; R95: while halted there is no step and nothing changes. The counter is incremented first and compared second,
as integers, so that it never wraps (R73). -/
def execRxidle (s : State) : Answer :=
  if running s then
    if s.idle.toNat + 1 = s.idleMax.toNat then .next (returning (timeOut s) .none)
    else .next (returning (countIdle s) .none)
  else .next (returning s .none)

end Sys2Proof.Machine
end

