-- ==== Sys2Proof/Machine/Reserved.lean ====
section
/-! DEFINITION. The reserved selectors (R57): the spec gives them no meaning (`refuse`). -/

namespace Sys2Proof.Machine

/-- R57, U4: the answer to a reserved selector. -/
def refuseReserved (op : BitVec 4) (_s : State) : Answer := .refused (.reservedSelector op)

/-- R57: selector `0xB`. -/
def execReservedB (s : State) : Answer := refuseReserved 0xB s

/-- R57: selector `0xC`. -/
def execReservedC (s : State) : Answer := refuseReserved 0xC s

/-- R57: selector `0xD`. -/
def execReservedD (s : State) : Answer := refuseReserved 0xD s

/-- R57: selector `0xE`. -/
def execReservedE (s : State) : Answer := refuseReserved 0xE s

/-- R57: selector `0xF`. -/
def execReservedF (s : State) : Answer := refuseReserved 0xF s

end Sys2Proof.Machine
end

