-- ==== Sys2Proof/Machine/Dispatch.lean ====
section
/-! DEFINITION. One arm per operation, each one call of its meaning. -/

namespace Sys2Proof.Machine

/-- R55: the operation named, applied to the state. -/
def exec (i : Instr) (s : State) : Host.Outcome State Fault Refusal :=
  match i with
  | .nop => Sys2Proof.Machine.execNop s
  | .rev6 a => Sys2Proof.Machine.execRev6 a s
  | .obf b => Sys2Proof.Machine.execObf b s
  | .deobf w => Sys2Proof.Machine.execDeobf w s
  | .cksum q => Sys2Proof.Machine.execCksum q s
  | .ckvfy q c => Sys2Proof.Machine.execCkvfy q c s
  | .enc a c n p => Sys2Proof.Machine.execEnc a c n p s
  | .dec f => Sys2Proof.Machine.execDec f s
  | .rxstart m => Sys2Proof.Machine.execRxstart m s
  | .rxbyteAwaitStart b => Sys2Proof.Machine.execRxbyteAwaitStart b s
  | .rxbyteInAddress b => Sys2Proof.Machine.execRxbyteInAddress b s
  | .rxbyteAwaitSecondSync b => Sys2Proof.Machine.execRxbyteAwaitSecondSync b s
  | .rxbyteInControl b => Sys2Proof.Machine.execRxbyteInControl b s
  | .rxbyteInLength b => Sys2Proof.Machine.execRxbyteInLength b s
  | .rxbyteInPayload b => Sys2Proof.Machine.execRxbyteInPayload b s
  | .rxbyteInChecksum b => Sys2Proof.Machine.execRxbyteInChecksum b s
  | .rxbyteInEof b => Sys2Proof.Machine.execRxbyteInEof b s
  | .rxidle => Sys2Proof.Machine.execRxidle s
  | .reservedB => Sys2Proof.Machine.execReservedB s
  | .reservedC => Sys2Proof.Machine.execReservedC s
  | .reservedD => Sys2Proof.Machine.execReservedD s
  | .reservedE => Sys2Proof.Machine.execReservedE s
  | .reservedF => Sys2Proof.Machine.execReservedF s

end Sys2Proof.Machine
end

