-- ==== Sys2Proof/Machine/Fetch.lean ====
section
/-! DEFINITION. Where the next operation comes from. The block fetches nothing (R1, R42): operations are issued by the
host or are the outcomes of polls (R34), in one total order (R40). -/

namespace Sys2Proof.Machine

/-- What the next turn brings. -/
inductive Fetched where
  /-- An operation, and the state in which it is performed. -/
  | run (i : Instr) (s : State)
  /-- Something that is no operation and is already done: a read of the status view, `RESET`, a poll not made. -/
  | settled (s : State)
  /-- Something to which the spec gives no meaning. -/
  | refuse (r : Refusal)
  deriving DecidableEq, Repr

/-- R34, R55: the selectors that only a poll's outcome issues. -/
def isPollSelector (op : BitVec 4) : Bool := op == 0x9 || op == 0xA

/-- R55: the host's next operation. Nothing presented is `NOP` (R72). The dispatch byte is made from the current `st`
and the selector (R56); bits 7:4 of the byte the host presents are not read. -/
def fetchHost (s : State) : Fetched :=
  match s.hostOps with
  | [] => .run .nop s
  | d :: operands =>
    if isPollSelector (selectorOf d) then .refuse (.pollOutcomeFromHost (selectorOf d))
    else
      match decode (dispatchByte (stCode s.st) (selectorOf d) :: operands) with
      | .ok (i, rest) => .run i { s with hostOps := rest }
      | .error e => .refuse (.undecodable e)

/-- R34: a poll's outcome as a presentation: "byte `b`" is `RXBYTE b` in the current state, "zero bytes" is `RXIDLE`. -/
def pollPresentation (st : St) (answer : Option Byte) : List Byte :=
  match answer with
  | some b => [dispatchByte (stCode st) 0x9, b]
  | none => [dispatchByte (stCode st) 0xA]

/-- R17, R34, R37: a poll is made exactly while running, and takes the transport's answer. While halted the transport
keeps what it has (R26, R95). A transport with no answer left has zero bytes available (log entry 6). -/
def fetchPoll (s : State) : Fetched :=
  if running s then
    match decode (pollPresentation s.st (s.transport.headD none)) with
    | .ok (i, _) => .run i { s with transport := s.transport.tail }
    | .error e => .refuse (.undecodable e)
  else .settled (returning s .none)

/-- R40: the next turn; with none left nothing is issued, which is `NOP` (R72). -/
def fetch (s : State) : Fetched :=
  match s.turns with
  | [] => .run .nop s
  | .host :: ts => fetchHost { s with turns := ts }
  | .poll :: ts => fetchPoll { s with turns := ts }
  | .status r :: ts =>
    match readStatus r s with
    | .ok v => .settled (returning { s with turns := ts } v)
    | .error e => .refuse e
  | .reset :: ts => .settled (returning (applyReset { s with turns := ts }) .none)

/-- The bytes of a presentation without what the decoder leaves over. -/
def ownBytes (bs : List Byte) : List Byte :=
  match decode bs with
  | .ok (_, rest) => bs.take (bs.length - rest.length)
  | .error _ => bs

/-- The state whose next turn presents the word's operation: a host operation goes to the front of what the host will
issue; `RXBYTE` and `RXIDLE` become the transport's next answer, with `st` as the dispatch byte has it, because the
block polls only in a running state and the row of `RXBYTE` is the row of `st` (R34, R56; log entry 7). -/
def placeOperation (s : State) (bs : List Byte) : State :=
  match bs with
  | [] => s
  | d :: operands =>
    let field := (stOfCode (stFieldOf d)).getD s.st
    if selectorOf d = 0x9 then
      { s with st := field, turns := .poll :: s.turns, transport := some (operands.headD 0) :: s.transport }
    else if selectorOf d = 0xA then
      { s with
        st := if stRunning field then field else if running s then s.st else .awaitStart
        turns := .poll :: s.turns
        transport := none :: s.transport }
    else { s with turns := .host :: s.turns, hostOps := ownBytes bs ++ s.hostOps }

end Sys2Proof.Machine
end

