-- ==== Sys2Proof/Machine/Step.lean ====
section
/-! DEFINITION. One step: fetch what the next turn brings, and perform it as one atomic step (R38). -/

namespace Sys2Proof.Machine

/-- R38, R40. -/
def step (s : State) : Host.Outcome State Fault Refusal :=
  match fetch s with
  | .run i t => exec i t
  | .settled t => .next t
  | .refuse r => .refused r

/-- The state whose next step performs the operation of the table word `w`. -/
def State.withFetchWord (s : State) (nbits w : Nat) : State := placeOperation s (tableWordBytes nbits w)

end Sys2Proof.Machine
end

