-- ==== Sys2Proof/Machine/Pseudo.lean ====
section
/-! DEFINITION. Issuing operations and polls to the block, and the pseudo-operations of R61 by their expansion. -/

namespace Sys2Proof.Machine

/-- The host issues `i` after everything it has already to issue, as the last turn. -/
def issue (s : State) (i : Instr) : State :=
  { s with turns := s.turns ++ [.host], hostOps := s.hostOps ++ encode i }

/-- The transport is polled once for each answer, after every turn already there. -/
def pollWith (s : State) (answers : List (Option Byte)) : State :=
  { s with turns := s.turns ++ answers.map (fun _ => .poll), transport := s.transport ++ answers }

/-- R61 `FEED`: one chunk of bytes. -/
def feed (s : State) (bs : List Byte) : State := pollWith s (bs.map some)

/-- R61 `IDLE k`. -/
def idlePolls (s : State) (k : Nat) : State := pollWith s (List.replicate k none)

/-- R61 `DECBUF`: `DEC buf`, legal only when `st = DONE` (R143). -/
def decBuf (s : State) : Option Instr := if s.st = .done then some (.dec s.buf) else none

/-- R61 `RUN m s`. -/
def runWith (s : State) (m : IdleCount) (bs : List Byte) : State := feed (issue s (.rxstart m)) bs

end Sys2Proof.Machine
end

