-- ==== Sys2Proof/Safety.lean ====
section
/-! DEFINITION. The terms claims use: well-formed frames (R54), the invariants of R109, and the parts of a state that
claims compare. -/

namespace Sys2Proof.Machine

/-- R54 `WF(g)`: a well-formed bare frame. The block never evaluates it. -/
abbrev wellFormedBare (g : List Byte) : Prop :=
  12 ≤ g.length ∧ byteAt g 0 = Config.sync ∧ byteAt g 7 = Config.sync ∧ (byteAt g 9).toNat = g.length - 12 ∧
    byteAt g (g.length - 2) = sum8 (slice g 0 (g.length - 3)) ∧ byteAt g (g.length - 1) = Config.term

/-- R54: a well-formed encoded frame. -/
abbrev wellFormedEncoded (f : List Byte) : Prop :=
  byteAt f 0 = Config.pre ∧ byteAt f 1 = Config.pre ∧ wellFormedBare (f.drop 2)

/-- R109, first table: what each value of `st` says of `buf`, `rem` and `idle`. -/
def frameProgress (s : State) : Prop :=
  match s.st with
  | .off => s.buf.length = 0 ∧ s.rem = 0 ∧ s.idle = 0
  | .awaitStart => s.buf.length = 0 ∧ s.rem = 0
  | .inAddress => 1 ≤ s.buf.length ∧ s.buf.length ≤ 6 ∧ s.rem.toNat = 7 - s.buf.length ∧ byteAt s.buf 0 = Config.sync
  | .awaitSecondSync => s.buf.length = 7 ∧ s.rem = 0 ∧ byteAt s.buf 0 = Config.sync
  | .inControl => s.buf.length = 8 ∧ s.rem = 0 ∧ byteAt s.buf 0 = Config.sync
  | .inLength => s.buf.length = 9 ∧ s.rem = 0 ∧ byteAt s.buf 0 = Config.sync
  | .inPayload =>
    10 ≤ s.buf.length ∧ s.buf.length ≤ 9 + (byteAt s.buf 9).toNat ∧
      s.rem.toNat = 10 + (byteAt s.buf 9).toNat - s.buf.length ∧ 1 ≤ (byteAt s.buf 9).toNat ∧
      byteAt s.buf 0 = Config.sync
  | .inChecksum => s.buf.length = 10 + (byteAt s.buf 9).toNat ∧ s.rem = 0 ∧ byteAt s.buf 0 = Config.sync
  | .inEof => s.buf.length = 11 + (byteAt s.buf 9).toNat ∧ s.rem = 0 ∧ byteAt s.buf 0 = Config.sync
  | .done =>
    s.buf.length = 12 + (byteAt s.buf 9).toNat ∧ s.rem = 0 ∧ s.idle = 0 ∧ byteAt s.buf 0 = Config.sync ∧
      12 ≤ s.buf.length ∧ s.buf.length ≤ Config.bufCap
  | .noFrame => s.buf.length = 0 ∧ s.rem = 0 ∧ s.idle = 0

/-- R109: the invariants of every reachable state. -/
def FrameInv (s : State) : Prop := frameProgress s ∧ s.idle.toNat < s.idleMax.toNat ∧ 1 ≤ s.idleMax.toNat

/-- R13: the five elements, all the state the block has, are the same. -/
def sameBlock (s t : State) : Prop :=
  t.st = s.st ∧ t.rem = s.rem ∧ t.buf = s.buf ∧ t.idle = s.idle ∧ t.idleMax = s.idleMax

/-- R26, R29: what the host and the transport hold is the same. -/
def sameSurroundings (s t : State) : Prop :=
  t.turns = s.turns ∧ t.hostOps = s.hostOps ∧ t.transport = s.transport

/-- R55: the operations of the codec unit, and `NOP`. -/
def isCodecOp (i : Instr) : Bool :=
  match i with
  | .nop => true
  | .rev6 _ => true
  | .obf _ => true
  | .deobf _ => true
  | .cksum _ => true
  | .ckvfy _ _ => true
  | .enc _ _ _ _ => true
  | .dec _ => true
  | .rxstart _ => false
  | .rxbyteAwaitStart _ => false
  | .rxbyteInAddress _ => false
  | .rxbyteAwaitSecondSync _ => false
  | .rxbyteInControl _ => false
  | .rxbyteInLength _ => false
  | .rxbyteInPayload _ => false
  | .rxbyteInChecksum _ => false
  | .rxbyteInEof _ => false
  | .rxidle => false
  | .reservedB => false
  | .reservedC => false
  | .reservedD => false
  | .reservedE => false
  | .reservedF => false

/-- R55, R56: the row of `RXBYTE` that applies in a state; none while halted (R95). -/
def rxbyteRow (st : St) (b : Byte) : Option Instr :=
  match st with
  | .off => none
  | .awaitStart => some (.rxbyteAwaitStart b)
  | .inAddress => some (.rxbyteInAddress b)
  | .awaitSecondSync => some (.rxbyteAwaitSecondSync b)
  | .inControl => some (.rxbyteInControl b)
  | .inLength => some (.rxbyteInLength b)
  | .inPayload => some (.rxbyteInPayload b)
  | .inChecksum => some (.rxbyteInChecksum b)
  | .inEof => some (.rxbyteInEof b)
  | .done => none
  | .noFrame => none

/-- R16: the position of a state along the chain from `AWAIT_START` to `DONE`; none for `OFF` and `NO_FRAME`. -/
def chainIndex (st : St) : Option Nat :=
  match st with
  | .off => none
  | .awaitStart => some 0
  | .inAddress => some 1
  | .awaitSecondSync => some 2
  | .inControl => some 3
  | .inLength => some 4
  | .inPayload => some 5
  | .inChecksum => some 6
  | .inEof => some 7
  | .done => some 8
  | .noFrame => none

/-- A run of `k` steps answers the state it ends in. -/
def reaches (k : Nat) (s t : State) : Prop := Host.Core.run Sys2Proof.core k s = .next t

/-- R69: the integer sum of the bytes of a sequence. -/
def byteSum (s : List Byte) : Nat := (s.map BitVec.toNat).sum

/-- R90: a byte with its bit `k` flipped, `k` from 0 to 7. -/
def flipBit (b : Byte) (k : Nat) : Byte := b ^^^ (1#8 <<< k)

/-- R111: the bytes among a transport's answers, in order. -/
def answeredBytes (answers : List (Option Byte)) : List Byte := answers.filterMap id

/-- R111 "below timeout": from a run of `gap` idle polls on, no `m` idle polls are consecutive. -/
def idleGapsBelow (m : Nat) : Nat → List (Option Byte) → Bool
  | _, [] => true
  | gap, none :: rest => decide (gap + 1 < m) && idleGapsBelow m (gap + 1) rest
  | _, some _ :: rest => idleGapsBelow m 0 rest

/-- Nothing is waiting: no turn, no host operation, no answer of the transport. -/
def nothingWaiting (s : State) : Prop := s.turns = [] ∧ s.hostOps = [] ∧ s.transport = []

end Sys2Proof.Machine
end

