-- ==== Sys2Proof/Certificates/Slice0/Obligations.lean ====
section
/-! DEFINITION. The statements for the provers: what the rules of spec/ say, about this model. Their entries (title,
basis, rules cited) stand in OBLIGATIONS.json. Two conventions of the model stand in every statement: `result` is the
place where a step returns the values that R14 says are returned with an operation, `.none` where it returns nothing
(log entry 4); and `s.turns`, `s.hostOps` and `s.transport` are the surroundings that R29 makes parameters of the step
(log entry 4). "Derived" in a docstring says that the spec marks the rule as its own inference. -/

open Sys2Proof Sys2Proof.Machine

/-! ### Reset and the invariants -/

/-- R27: every state element after reset, and the flags that follow from `st`. -/
def Obligations.ResetGivesEveryElementItsValue : Prop :=
  State.reset.st = .off ∧ State.reset.rem = 0 ∧ State.reset.buf = [] ∧ State.reset.idle = 0 ∧ State.reset.idleMax = 1 ∧
    running State.reset = false ∧ doneFlag State.reset = false ∧ noframeFlag State.reset = false ∧
    offFlag State.reset = true

/-- R109 (derived) at the state after reset. -/
def Obligations.ResetMeetsInvariant : Prop := FrameInv State.reset

/-- R109 (derived), inductively: whatever state meets the invariants, and whatever the next turn brings, the state after the step
meets them. -/
def Obligations.StepKeepsInvariant : Prop :=
  ∀ s t : State, FrameInv s → step s = .next t → FrameInv t

/-- R109 (derived): every state reachable from reset, whatever the host issues and the transport answers, in whatever order. -/
def Obligations.ReachableStateMeetsInvariant : Prop :=
  ∀ (turns : List Turn) (ops : List Byte) (answers : List (Option Byte)) (k : Nat) (t : State),
    reaches k { State.reset with turns := turns, hostOps := ops, transport := answers } t → FrameInv t

/-- R19 (derived): in every reachable state `buf` is within its capacity; and a state that meets the invariants and
whose `buf` is full is `DONE`, in which no row of `RXBYTE` applies. -/
def Obligations.BufferNeverOverflows : Prop :=
  (∀ (turns : List Turn) (ops : List Byte) (answers : List (Option Byte)) (k : Nat) (t : State),
    reaches k { State.reset with turns := turns, hostOps := ops, transport := answers } t → t.buf.length ≤ 267) ∧
  ∀ t : State, FrameInv t → t.buf.length = 267 → t.st = .done ∧ ∀ b, rxbyteRow t.st b = none

/-- R135: `RESET` in any state gives the five elements their reset values and leaves what the host and the transport
hold. That it is a turn, and that the step returns nothing, is the model's (log entries 4 and 11). -/
def Obligations.ResetAppliesInAnyState : Prop :=
  ∀ (s : State) (ts : List Turn), s.turns = .reset :: ts →
    step s = .next { s with
      st := .off, rem := 0, buf := [], idle := 0, idleMax := 1, turns := ts, result := .none }

/-! ### The status view and the flags -/

/-- R15, R17, R21: the numbering of `st`, and the four status bits as functions of it. -/
def Obligations.FlagsFollowSt : Prop :=
  (∀ st : St, stOfCode (stCode st) = some st) ∧
    (∀ c : BitVec 4, 11 ≤ c.toNat → stOfCode c = none) ∧
    [St.off, .awaitStart, .inAddress, .awaitSecondSync, .inControl, .inLength, .inPayload, .inChecksum, .inEof, .done,
        .noFrame].map (fun st => (stCode st).toNat) = List.range 11 ∧
    ∀ s : State,
      (running s = true ↔ 1 ≤ (stCode s.st).toNat ∧ (stCode s.st).toNat ≤ 8) ∧
        (doneFlag s = true ↔ s.st = .done) ∧ (noframeFlag s = true ↔ s.st = .noFrame) ∧ (offFlag s = true ↔ s.st = .off)

/-- R25: what each register of the status view reads as; reading changes nothing; `RBUF[i]` beyond `len(buf)` is
refused. That a read is a turn of its own is the model's (log entry 11). -/
def Obligations.StatusViewReadsWithoutEffect : Prop :=
  (∀ (s : State) (ts : List Turn),
    (s.turns = .status .rstat :: ts → ∃ w : BitVec 8,
      step s = .next { s with turns := ts, result := .byte w } ∧ w.extractLsb' 0 4 = stCode s.st ∧
        w.getLsbD 4 = running s ∧ w.getLsbD 5 = doneFlag s ∧ w.getLsbD 6 = noframeFlag s ∧ w.getLsbD 7 = offFlag s) ∧
    (s.turns = .status .rrem :: ts → step s = .next { s with turns := ts, result := .byte s.rem }) ∧
    (s.turns = .status .rlen :: ts → s.buf.length ≤ 267 → ∃ n : BitVec 9,
      step s = .next { s with turns := ts, result := .length n } ∧ n.toNat = s.buf.length) ∧
    (s.turns = .status .ridle :: ts → step s = .next { s with turns := ts, result := .count s.idle }) ∧
    (s.turns = .status .ridlemax :: ts → step s = .next { s with turns := ts, result := .count s.idleMax }) ∧
    ∀ i, s.turns = .status (.rbuf i) :: ts →
      (∀ h : i < s.buf.length, step s = .next { s with turns := ts, result := .byte s.buf[i] }) ∧
        (s.buf.length ≤ i → step s = .refused (.beyondBuffer i)))

/-! ### What a step runs -/

/-- R38, R40, R55: on the host's turn, when the bytes presented decode to `i`, the step is `exec` of `i` at the state
with that turn and those bytes taken. How an operation's operands are laid out in the bytes presented, and that `st` in
the dispatch byte is the block's own, is the model's (log entry 3). That a host's turn with nothing presented is `NOP`
is the model's too (log entry 6). -/
def Obligations.StepRunsHostOperation : Prop :=
  ∀ (s : State) (ts : List Turn), s.turns = .host :: ts →
    (s.hostOps = [] → step s = exec .nop { s with turns := ts }) ∧
    ∀ (d : Byte) (operands rest : List Byte) (i : Instr), s.hostOps = d :: operands →
      selectorOf d ≠ 0x9 → selectorOf d ≠ 0xA →
      decode (dispatchByte (stCode s.st) (selectorOf d) :: operands) = .ok (i, rest) →
        step s = exec i { s with turns := ts, hostOps := rest }

/-- R17, R34, R56: on the transport's turn, while running, "byte `b`" runs the row of `RXBYTE` that belongs to `st`, and
"zero bytes" runs `RXIDLE`; the answer is taken from the transport. That a transport with no answer left has zero bytes
available is the model's (log entry 6). -/
def Obligations.StepRunsPollOutcome : Prop :=
  ∀ (s : State) (ts : List Turn), s.turns = .poll :: ts → running s = true →
    (∀ b rest, s.transport = some b :: rest →
      ∃ i, rxbyteRow s.st b = some i ∧ step s = exec i { s with turns := ts, transport := rest }) ∧
    (∀ rest, s.transport = none :: rest → step s = exec .rxidle { s with turns := ts, transport := rest }) ∧
    (s.transport = [] → step s = exec .rxidle { s with turns := ts })

/-- R95: while halted no poll is made, the transport keeps its answers, and `RXBYTE` and `RXIDLE` change nothing. That
"no step" is answered as a next state with nothing of the block changed is the model's (log entry 8). -/
def Obligations.HaltedBlockTakesNothing : Prop :=
  ∀ s : State, running s = false →
    (∀ ts, s.turns = .poll :: ts → step s = .next { s with turns := ts, result := .none }) ∧
    exec .rxidle s = .next { s with result := .none } ∧
    ∀ (st : St) (b : Byte) (i : Instr), rxbyteRow st b = some i → exec i s = .next { s with result := .none }

/-- R40, R72: with no turn left nothing is issued and nothing changes. The model's reading (log entry 6). -/
def Obligations.StepWithNoTurnIsNop : Prop :=
  ∀ s : State, s.turns = [] → step s = .next { s with result := .none }

/-- R34, R55: `RXBYTE` and `RXIDLE` are issued by a poll's outcome; the host's presenting one is refused. The refusal is
the model's (log entry 10). -/
def Obligations.HostCannotIssuePollOutcome : Prop :=
  ∀ (s : State) (ts : List Turn) (d : Byte) (operands : List Byte), s.turns = .host :: ts → s.hostOps = d :: operands →
    selectorOf d = 0x9 ∨ selectorOf d = 0xA → step s = .refused (.pollOutcomeFromHost (selectorOf d))

/-! ### Encoding -/

/-- R55, R56: nine dispatch words of the table (`NOP`, `REV6`, `ENC`, `DEC`, `RXSTART`, two rows of `RXBYTE`, `RXIDLE`,
`RESERVED_B`) are read as their rows' operations, and two words of `RXBYTE` while halted are read as none. The dispatch byte is R56's. That the zero bytes after it are
zero operands (six address bytes, two count bytes, the strobe `00` of an empty sequence) is the model's layout (log
entry 3). -/
def Obligations.DecoderReadsDispatchWords : Prop :=
  decodeTableWord 8 0x00 = some .nop ∧ decodeTableWord 8 0x01 = some (.rev6 ⟨0, 0, 0, 0, 0, 0⟩) ∧
    decodeTableWord 8 0x06 = some (.enc ⟨0, 0, 0, 0, 0, 0⟩ 0 0 []) ∧ decodeTableWord 8 0x07 = some (.dec []) ∧
    decodeTableWord 8 0x08 = some (.rxstart 0) ∧ decodeTableWord 8 0x29 = some (.rxbyteInAddress 0) ∧
    decodeTableWord 8 0x89 = some (.rxbyteInEof 0) ∧ decodeTableWord 8 0x0A = some .rxidle ∧
    decodeTableWord 8 0x0B = some .reservedB ∧ decodeTableWord 8 0x09 = none ∧ decodeTableWord 8 0x99 = none

/-- Decode and encode agree for every well-formed operation, whatever bytes follow. The operands' layout is the model's
(log entry 3); the dispatch byte is R56's. -/
def Obligations.DecodeOfEncodeIsIdentity : Prop :=
  ∀ (i : Instr) (rest : List Byte), i.wf = true → decode (encode i ++ rest) = .ok (i, rest)

/-- Whatever is decoded is well-formed; so `ENC` with more than 255 payload bytes cannot be presented (R78). -/
def Obligations.DecodedOperationIsWellFormed : Prop :=
  ∀ (bs rest : List Byte) (i : Instr), decode bs = .ok (i, rest) → i.wf = true

/-- R55: an operation that the host issues, when nothing else is waiting, is the one the next step performs, in any
state of the block. -/
def Obligations.IssuedOperationIsPerformed : Prop :=
  ∀ (s : State) (i : Instr), nothingWaiting s → i.wf = true → i ≠ .rxidle → (∀ st b, rxbyteRow st b ≠ some i) →
    step (issue s i) = exec i s

/-! ### The codec primitives and `NOP` -/

/-- R72. -/
def Obligations.NopChangesNothing : Prop := ∀ s : State, exec .nop s = .next { s with result := .none }

/-- R63: `r[k] = a[5 - k]`. -/
def Obligations.Rev6ReversesTheBytes : Prop :=
  ∀ (a : Address) (s : State), ∃ r : Address, exec (.rev6 a) s = .next { s with result := .address r } ∧
    addressBytes r = (addressBytes a).reverse ∧ ∀ k < 6, byteAt (addressBytes r) k = byteAt (addressBytes a) (5 - k)

/-- R64 (derived). -/
def Obligations.Rev6IsAnInvolution : Prop :=
  ∀ (a r : Address) (s t : State), exec (.rev6 a) s = .next { s with result := .address r } →
    exec (.rev6 r) t = .next { t with result := .address a }

/-- R66: addition, not exclusive-or. -/
def Obligations.ObfAddsTheOffset : Prop :=
  ∀ (b : Byte) (s : State), ∃ w : Byte, exec (.obf b) s = .next { s with result := .byte w } ∧
    w.toNat = (b.toNat + 0x33) % 256

/-- R67: the least non-negative residue. -/
def Obligations.DeobfSubtractsTheOffset : Prop :=
  ∀ (w : Byte) (s : State), ∃ b : Byte, exec (.deobf w) s = .next { s with result := .byte b } ∧
    (b.toNat : Int) = ((w.toNat : Int) - 0x33) % 256

/-- R68 (derived). -/
def Obligations.ObfuscationLaws : Prop :=
  (∀ b, deobfByte (obfByte b) = b) ∧ (∀ w, obfByte (deobfByte w) = w) ∧ Function.Bijective obfByte ∧
    Function.Bijective deobfByte ∧ (∀ b, obfByte b ≠ b) ∧ (∀ w, deobfByte w ≠ w) ∧
    (∀ b, obfByte (obfByte b) = add8 b 0x66) ∧ ∃ b, obfByte (obfByte b) ≠ b

/-- R69. -/
def Obligations.CksumSumsModulo256 : Prop :=
  ∀ (q : List Byte) (s : State), ∃ k : Byte, exec (.cksum q) s = .next { s with result := .byte k } ∧
    k.toNat = byteSum q % 256

/-- R71. -/
def Obligations.CkvfyComparesTheSum : Prop :=
  ∀ (q : List Byte) (c : Byte) (s : State), ∃ v : Bool, exec (.ckvfy q c) s = .next { s with result := .valid v } ∧
    (v = true ↔ byteSum q % 256 = c.toNat)

/-- R70 (derived): (a) sums of parts add; (b) a flipped bit changes the integer sum by plus or minus `2^k` and always changes the
checksum; (c) a permutation, two changes that cancel and inserted `00` bytes do not change it. -/
def Obligations.ChecksumLaws : Prop :=
  (∀ q r, sum8 (q ++ r) = add8 (sum8 q) (sum8 r)) ∧
    (∀ (q : List Byte) (i k : Nat), i < q.length → k < 8 →
      ((byteSum (q.set i (flipBit (byteAt q i) k)) : Int) = byteSum q + 2 ^ k ∨
        (byteSum (q.set i (flipBit (byteAt q i) k)) : Int) = byteSum q - 2 ^ k) ∧
      sum8 (q.set i (flipBit (byteAt q i) k)) ≠ sum8 q) ∧
    (∀ q r : List Byte, q.Perm r → sum8 q = sum8 r) ∧
    (∀ (q : List Byte) (i j : Nat) (d : Byte), i < q.length → j < q.length → i ≠ j →
      sum8 ((q.set i (add8 (byteAt q i) d)).set j (sub8 (byteAt q j) d)) = sum8 q) ∧
    ∀ (q r : List Byte) (n : Nat), sum8 (q ++ List.replicate n 0 ++ r) = sum8 (q ++ r)

/-! ### `ENC` and `DEC` -/

/-- R77, "written out": every byte of the frame, the checksum also in its second form. -/
def Obligations.EncBuildsTheFrame : Prop :=
  ∀ (a : Address) (c n : Byte) (p : List Byte) (s : State), p.length = n.toNat →
    ∃ f : List Byte, exec (.enc a c n p) s = .next { s with result := .frame f } ∧ f.length = 14 + n.toNat ∧
      byteAt f 0 = 0xFE ∧ byteAt f 1 = 0xFE ∧ byteAt f 2 = 0x68 ∧
      (∀ j < 6, byteAt f (3 + j) = byteAt (addressBytes a) (5 - j)) ∧
      byteAt f 9 = 0x68 ∧ byteAt f 10 = c ∧ byteAt f 11 = n ∧
      (∀ i < n.toNat, (byteAt f (12 + i)).toNat = ((byteAt p i).toNat + 0x33) % 256) ∧
      (byteAt f (12 + n.toNat)).toNat = (0x68 + byteSum (addressBytes a) + 0x68 + c.toNat + n.toNat +
        byteSum (slice f 12 (11 + n.toNat))) % 256 ∧
      (byteAt f (12 + n.toNat)).toNat = (0x68 + byteSum (addressBytes a) + 0x68 + c.toNat + n.toNat +
        (byteSum p + 0x33 * n.toNat)) % 256 ∧
      byteAt f (13 + n.toNat) = 0x16

/-- R79 (derived): the length, well-formedness (R54), the place of the first `0x68`, and injectivity. -/
def Obligations.EncodedFrameIsWellFormed : Prop :=
  (∀ (a : Address) (c n : Byte) (p f : List Byte) (s : State),
    exec (.enc a c n p) s = .next { s with result := .frame f } →
      f.length = 14 + n.toNat ∧ wellFormedEncoded f ∧ byteAt f 2 = 0x68 ∧ ∀ j < 2, byteAt f j ≠ 0x68) ∧
    ∀ (a a' : Address) (c c' n n' : Byte) (p p' f : List Byte) (s : State),
      exec (.enc a c n p) s = .next { s with result := .frame f } →
      exec (.enc a' c' n' p') s = .next { s with result := .frame f } → a = a' ∧ c = c' ∧ p = p'

/-- R78: 0 and 255 payload bytes are legal; a payload that is not exactly `n` bytes, which no presentation holds, is
refused, as R78 lets a model do with a longer one (log entry 12). -/
def Obligations.EncRefusesAnotherLength : Prop :=
  (∀ (a : Address) (c n : Byte) (p : List Byte) (s : State), p.length ≠ n.toNat →
    exec (.enc a c n p) s = .refused (.payloadLength n p.length)) ∧
  (∀ (a : Address) (c : Byte) (s : State), ∃ f, exec (.enc a c 0 []) s = .next { s with result := .frame f } ∧
    f.length = 14) ∧
  ∀ (a : Address) (c : Byte) (p : List Byte) (s : State), p.length = 255 →
    ∃ f, exec (.enc a c 255 p) s = .next { s with result := .frame f } ∧ f.length = 269

/-- R81, R83 to R86: an operand is a run of `0xFE`, which is dropped, and a `g` that does not begin with one; with at
least 12 bytes in `g` the fields stand where the rules say and `valid` is the checksum comparison. -/
def Obligations.DecFindsFieldsByPosition : Prop :=
  ∀ (k : Nat) (g : List Byte) (s : State), g.head? ≠ some 0xFE → 12 ≤ g.length →
    ∃ (a : Address) (c : Byte) (p : List Byte) (v : Bool),
      exec (.dec (List.replicate k 0xFE ++ g)) s = .next { s with result := .decoded a c p v } ∧
      (∀ j < 6, byteAt (addressBytes a) j = byteAt g (6 - j)) ∧ c = byteAt g 8 ∧ p.length = g.length - 12 ∧
      (∀ j < g.length - 12, ((byteAt p j).toNat : Int) = (((byteAt g (10 + j)).toNat : Int) - 0x33) % 256) ∧
      (v = true ↔ byteSum (g.take (g.length - 2)) % 256 = (byteAt g (g.length - 2)).toNat)

/-- R82: with fewer than 12 bytes `valid` is 0 and the step completes; the other results are any value, and nothing is
said of them. -/
def Obligations.DecOfShortOperandIsInvalid : Prop :=
  ∀ (k : Nat) (g : List Byte) (s : State), g.head? ≠ some 0xFE → g.length < 12 →
    ∃ (a : Address) (c : Byte) (p : List Byte),
      exec (.dec (List.replicate k 0xFE ++ g)) s = .next { s with result := .decoded a c p false }

/-- R89: `DEC` of `ENC`, with the preamble and without it; and the converse on well-formed bare frames. -/
def Obligations.DecodeOfEncodedFrame : Prop :=
  (∀ (a : Address) (c n : Byte) (p f : List Byte) (s t : State), p.length = n.toNat →
    exec (.enc a c n p) s = .next { s with result := .frame f } →
      exec (.dec f) t = .next { t with result := .decoded a c p true } ∧
        exec (.dec (f.drop 2)) t = .next { t with result := .decoded a c p true }) ∧
  ∀ (g : List Byte) (s : State), wellFormedBare g →
    ∃ (a : Address) (c n : Byte) (p f : List Byte),
      exec (.dec g) s = .next { s with result := .decoded a c p true } ∧ p.length = n.toNat ∧
        exec (.enc a c n p) s = .next { s with result := .frame f } ∧ f.drop 2 = g

/-- R90 (derived): in an encoded frame, behind any number of `0xFE`: (a) one flipped bit from the first sync through the last
payload byte, (b) any other checksum byte, make `valid` 0; (c) any terminator byte leaves it 1. -/
def Obligations.DamageIsDetected : Prop :=
  ∀ (a : Address) (c n : Byte) (p f : List Byte) (s : State) (m : Nat), p.length = n.toNat →
    exec (.enc a c n p) s = .next { s with result := .frame f } →
      (∀ i k, i < 10 + n.toNat → k < 8 → ∃ a' c' p',
        exec (.dec (List.replicate m 0xFE ++ (f.drop 2).set i (flipBit (byteAt (f.drop 2) i) k))) s =
          .next { s with result := .decoded a' c' p' false }) ∧
      (∀ b, b ≠ byteAt (f.drop 2) (10 + n.toNat) → ∃ a' c' p',
        exec (.dec (List.replicate m 0xFE ++ (f.drop 2).set (10 + n.toNat) b)) s =
          .next { s with result := .decoded a' c' p' false }) ∧
      ∀ b, exec (.dec (List.replicate m 0xFE ++ (f.drop 2).set (11 + n.toNat) b)) s =
        .next { s with result := .decoded a c p true }

/-- R43 (derived): `NOP` and the codec operations complete whatever the block is doing, change nothing of it nor of its
surroundings, and return what their operands alone decide. -/
def Obligations.CodecUnitIsApart : Prop :=
  ∀ i : Instr, isCodecOp i = true → i.wf = true →
    ∃ r : Result, ∀ s : State, exec i s = .next { s with result := r }

/-! ### The reassembler -/

/-- R92: `RXSTART m` from any halted state, with the flags it leaves. -/
def Obligations.RxstartBeginsARun : Prop :=
  ∀ (m : IdleCount) (s : State), m ≠ 0 → running s = false →
    ∃ t, exec (.rxstart m) s = .next t ∧
      t = { s with st := .awaitStart, buf := [], rem := 0, idle := 0, idleMax := m, result := .none } ∧
      running t = true ∧ doneFlag t = false ∧ noframeFlag t = false ∧ offFlag t = false

/-- R93: `RXSTART` has no meaning for `m = 0` in any state, nor for any `m` while a run is in progress. -/
def Obligations.RxstartRefusals : Prop :=
  (∀ s : State, ∃ r, exec (.rxstart 0) s = .refused r) ∧
    ∀ (m : IdleCount) (s : State), running s = true → ∃ r, exec (.rxstart m) s = .refused r

/-- R94, R97: hunting for the first sync. -/
def Obligations.HuntTakesTheFirstSync : Prop :=
  ∀ (b : Byte) (s : State), s.st = .awaitStart →
    exec (.rxbyteAwaitStart b) s = .next
      (if b = 0x68 then { s with buf := s.buf ++ [0x68], rem := 6, st := .inAddress, idle := 0, result := .none }
        else { s with idle := 0, result := .none })

/-- R94, R98: an address byte; on reaching 0 the state moves on. -/
def Obligations.AddressByteIsCounted : Prop :=
  ∀ (b : Byte) (s : State), s.st = .inAddress → 1 ≤ s.rem.toNat →
    ∃ r : Byte, r.toNat = s.rem.toNat - 1 ∧ exec (.rxbyteInAddress b) s = .next
      { s with
        buf := s.buf ++ [b], rem := r, st := (if r.toNat = 0 then .awaitSecondSync else .inAddress), idle := 0,
        result := .none }

/-- R94, R99, R100, R103: the three states inside a frame that take any one byte and move on. -/
def Obligations.SingleByteStatesTakeAnyByte : Prop :=
  ∀ (b : Byte) (s : State),
    (s.st = .awaitSecondSync → exec (.rxbyteAwaitSecondSync b) s = .next
      { s with buf := s.buf ++ [b], st := .inControl, idle := 0, result := .none }) ∧
    (s.st = .inControl → exec (.rxbyteInControl b) s = .next
      { s with buf := s.buf ++ [b], st := .inLength, idle := 0, result := .none }) ∧
    (s.st = .inChecksum → exec (.rxbyteInChecksum b) s = .next
      { s with buf := s.buf ++ [b], st := .inEof, idle := 0, result := .none })

/-- R94, R104: the byte taken as the terminator, whatever it is, completes the frame; the flags; and from a state that
meets the invariants, `rem` and the length of the frame. -/
def Obligations.TerminatorByteCompletesTheFrame : Prop :=
  ∀ (b : Byte) (s : State), s.st = .inEof →
    ∃ t, exec (.rxbyteInEof b) s = .next t ∧
      t = { s with buf := s.buf ++ [b], st := .done, idle := 0, result := .none } ∧
      doneFlag t = true ∧ running t = false ∧
      (FrameInv s → t.rem = 0 ∧ t.buf.length = 12 + (byteAt t.buf 9).toNat)

/-- R94, R101: the length byte decides where the state goes and what `rem` becomes. -/
def Obligations.LengthByteBranches : Prop :=
  ∀ (b : Byte) (s : State), s.st = .inLength →
    exec (.rxbyteInLength b) s = .next
      (if b.toNat > 0 then { s with buf := s.buf ++ [b], rem := b, st := .inPayload, idle := 0, result := .none }
        else { s with buf := s.buf ++ [b], st := .inChecksum, idle := 0, result := .none })

/-- R94, R102: a payload byte, stored as received; on reaching 0 the state moves on. -/
def Obligations.PayloadByteIsCounted : Prop :=
  ∀ (b : Byte) (s : State), s.st = .inPayload → 1 ≤ s.rem.toNat →
    ∃ r : Byte, r.toNat = s.rem.toNat - 1 ∧ exec (.rxbyteInPayload b) s = .next
      { s with
        buf := s.buf ++ [b], rem := r, st := (if r.toNat = 0 then .inChecksum else .inPayload), idle := 0,
        result := .none }

/-- R31, R32 (derived): `RXBYTE` stores at address `len(buf)` and at no other; the byte that `AWAIT_START` discards is stored
nowhere. -/
def Obligations.RxbyteStoresAtTheEndOnly : Prop :=
  ∀ (b : Byte) (s : State) (i : Instr), rxbyteRow s.st b = some i →
    ∃ t, exec i s = .next t ∧
      (∀ addr, addr ≠ s.buf.length → readBuf t addr = readBuf s addr) ∧
      readBuf t s.buf.length = (if s.st = .awaitStart ∧ b ≠ 0x68 then none else some b) ∧
      t.idle = 0 ∧ t.idleMax = s.idleMax ∧ sameSurroundings s t

/-- R106: the idle poll counts, and the `idle_max`-th consecutive one ends the run. The premise on `idle` is the
invariant of R109. -/
def Obligations.RxidleCountsOrTimesOut : Prop :=
  ∀ s : State, running s = true → s.idle.toNat < s.idleMax.toNat →
    (s.idle.toNat + 1 = s.idleMax.toNat →
      ∃ t, exec .rxidle s = .next t ∧
        t = { s with st := .noFrame, buf := [], rem := 0, idle := 0, result := .none } ∧
        noframeFlag t = true ∧ running t = false) ∧
    (s.idle.toNat + 1 < s.idleMax.toNat → ∃ n : IdleCount, n.toNat = s.idle.toNat + 1 ∧
      exec .rxidle s = .next { s with idle := n, result := .none })

/-- R57: a reserved selector is refused. -/
def Obligations.ReservedSelectorsAreRefused : Prop :=
  ∀ s : State, exec .reservedB s = .refused (.reservedSelector 0xB) ∧
    exec .reservedC s = .refused (.reservedSelector 0xC) ∧ exec .reservedD s = .refused (.reservedSelector 0xD) ∧
    exec .reservedE s = .refused (.reservedSelector 0xE) ∧ exec .reservedF s = .refused (.reservedSelector 0xF)

/-- R56: a row of `RXBYTE` that is not the row of the running state has no meaning there. The refusal, and its name, are
the model's (log entry 9). -/
def Obligations.OtherRowsOfRxbyteAreRefused : Prop :=
  ∀ (s : State) (st : St) (b : Byte) (i : Instr), running s = true → st ≠ s.st → rxbyteRow st b = some i →
    exec i s = .refused (.rowDoesNotApply st s.st)

/-- A presentation of the host that decodes to no operation is refused, with the decoder's reason. The layout of
operands, and so what is no operation, is the model's (log entry 3). -/
def Obligations.UndecodablePresentationIsRefused : Prop :=
  ∀ (s : State) (ts : List Turn) (d : Byte) (operands : List Byte) (e : DecodeError), s.turns = .host :: ts →
    s.hostOps = d :: operands → selectorOf d ≠ 0x9 → selectorOf d ≠ 0xA →
    decode (dispatchByte (stCode s.st) (selectorOf d) :: operands) = .error e → step s = .refused (.undecodable e)

/-- R119, R123: no operation faults, and the only ones refused are contract violations: `RXSTART` with `m = 0` or while
running, a reserved selector, an `ENC` that cannot be presented; and a row of `RXBYTE` that is not the row of the
running state, which no step runs (log entry 9). -/
def Obligations.OnlyContractViolationsAreRefused : Prop :=
  ∀ (i : Instr) (s : State),
    (∀ r, exec i s ≠ .fault r) ∧
    ∀ r, exec i s = .refused r →
      (∃ m, i = .rxstart m ∧ (m = 0 ∨ running s = true)) ∨
        i ∈ [Instr.reservedB, .reservedC, .reservedD, .reservedE, .reservedF] ∨
        (∃ a c n p, i = .enc a c n p ∧ p.length ≠ n.toNat) ∨
        (running s = true ∧ ∃ st b, st ≠ s.st ∧ rxbyteRow st b = some i)

/-! ### Rules of the whole machine -/

/-- R16, R113 (derived): a step leaves `st`, or moves it one place along the chain, or skips `IN_PAYLOAD`, or ends the run in
`NO_FRAME`, or begins a run from a halted state, or is `RESET`; nothing moves it back. -/
def Obligations.StMovesAlongTheChain : Prop :=
  ∀ s t : State, step s = .next t → t.st ≠ s.st →
    (s.turns.head? = some .reset ∧ t.st = .off) ∨
      (running s = false ∧ s.turns.head? = some .host ∧ t.st = .awaitStart) ∨
      (running s = true ∧ s.turns.head? = some .poll ∧
        (t.st = .noFrame ∨ (∃ k, chainIndex s.st = some k ∧ chainIndex t.st = some (k + 1)) ∨
          (s.st = .inLength ∧ t.st = .inChecksum)))

/-- R18: `buf` grows by one byte at its end or is emptied as a whole, and nothing else happens to it. -/
def Obligations.BufferGrowsAtItsEndOrIsEmptied : Prop :=
  ∀ s t : State, step s = .next t →
    t.buf = s.buf ∨ t.buf = [] ∨ (running s = true ∧ s.turns.head? = some .poll ∧ ∃ b, t.buf = s.buf ++ [b])

/-- R105, R107: a run's outcome stands, with all five elements, until `RXSTART` or `RESET`. -/
def Obligations.OutcomeStandsUntilNextRun : Prop :=
  ∀ s t : State, s.st = .done ∨ s.st = .noFrame → step s = .next t →
    sameBlock s t ∨
      (s.turns.head? = some .host ∧ t.st = .awaitStart ∧ t.buf = [] ∧ t.rem = 0 ∧ t.idle = 0 ∧ t.idleMax ≠ 0) ∨
      (s.turns.head? = some .reset ∧ t.st = .off ∧ t.buf = [] ∧ t.rem = 0 ∧ t.idle = 0 ∧ t.idleMax = 1)

/-- R105, R107: `DONE` is entered only by a byte taken in `IN_EOF`, `NO_FRAME` only by the idle poll that times out. -/
def Obligations.RunEndsOnlyAsTheRulesSay : Prop :=
  ∀ s t : State, step s = .next t →
    (t.st = .done → s.st ≠ .done → s.st = .inEof ∧ ∃ b, s.transport.head? = some (some b) ∧ t.buf = s.buf ++ [b]) ∧
      (t.st = .noFrame → s.st ≠ .noFrame →
        running s = true ∧ s.transport.headD none = none ∧ s.idle.toNat + 1 = s.idleMax.toNat)

/-- R28: the values at the end of a run and at the start of one; two runs begun with the same `m` start alike. -/
def Obligations.RunsStartAndEndCanonically : Prop :=
  (∀ s t : State, FrameInv s → step s = .next t → t.st = .done → s.st ≠ .done →
    t.rem = 0 ∧ t.idle = 0 ∧ t.idleMax = s.idleMax ∧ ∃ b, t.buf = s.buf ++ [b]) ∧
  (∀ s t : State, step s = .next t → t.st = .noFrame → s.st ≠ .noFrame →
    t.buf = [] ∧ t.rem = 0 ∧ t.idle = 0 ∧ t.idleMax = s.idleMax) ∧
  ∀ (m : IdleCount) (s s' : State), m ≠ 0 → running s = false → running s' = false →
    ∃ t t', exec (.rxstart m) s = .next t ∧ exec (.rxstart m) s' = .next t' ∧ sameBlock t t' ∧
      t.st = .awaitStart ∧ t.buf = [] ∧ t.rem = 0 ∧ t.idle = 0 ∧ t.idleMax = m

/-- R108 (derived): `k` idle polls in a row either leave `st`, `buf` and `rem` and add `k` to the count, or, when they
reach `idle_max`, end the run. That the polls left over after the time-out are steps too, in which nothing of the block
changes, is the model's answer to R95's "no step" (log entry 8). -/
def Obligations.ConsecutiveIdlePollsTimeOut : Prop :=
  ∀ (s : State) (k : Nat), running s = true → s.idle.toNat < s.idleMax.toNat → nothingWaiting s →
    ∃ t, reaches k (idlePolls s k) t ∧ t.idleMax = s.idleMax ∧
      (s.idle.toNat + k < s.idleMax.toNat →
        t.st = s.st ∧ t.buf = s.buf ∧ t.rem = s.rem ∧ t.idle.toNat = s.idle.toNat + k) ∧
      (s.idleMax.toNat ≤ s.idle.toNat + k → t.st = .noFrame ∧ t.buf = [] ∧ t.rem = 0 ∧ t.idle = 0)

/-- R148 (derived): bytes none of which is `0x68` keep a run in `AWAIT_START`, however many, with `idle` cleared. -/
def Obligations.NoiseKeepsHunting : Prop :=
  ∀ (s : State) (bs : List Byte), s.st = .awaitStart → nothingWaiting s → bs ≠ [] → (∀ b ∈ bs, b ≠ 0x68) →
    ∃ t, reaches bs.length (feed s bs) t ∧ t.st = .awaitStart ∧ t.buf = s.buf ∧ t.rem = s.rem ∧ t.idle = 0 ∧
      t.idleMax = s.idleMax

/-- R111 (derived): with no `idle_max` consecutive idle polls no run times out, and the outcome depends only on the
bytes; and so it does for any answers after which no run has timed out. That polls after `DONE` or `NO_FRAME` are steps
too, in which nothing of the block changes and no answer is taken, is the model's answer to R95's "no step" (log entry
8). -/
def Obligations.ChunkingDoesNotMatter : Prop :=
  (∀ (s : State) (xs : List (Option Byte)), running s = true → s.idle.toNat < s.idleMax.toNat → nothingWaiting s →
    idleGapsBelow s.idleMax.toNat s.idle.toNat xs = true →
      ∃ t, reaches xs.length (pollWith s xs) t ∧ t.st ≠ .noFrame) ∧
  ∀ (s t u : State) (xs ys : List (Option Byte)), running s = true → nothingWaiting s →
    answeredBytes xs = answeredBytes ys → reaches xs.length (pollWith s xs) t → reaches ys.length (pollWith s ys) u →
    t.st ≠ .noFrame → u.st ≠ .noFrame → t.st = u.st ∧ t.buf = u.buf ∧ t.rem = u.rem

/-- R110 (derived), R115, R26: a run that ends in `DONE` took some bytes other than `0x68`, then the frame now in `buf`,
and no byte after it: the rest is still with the transport. That the polls after `DONE` are steps too, in which nothing
of the block changes and no answer is taken, is the model's answer to R95's "no step" (log entry 8). -/
def Obligations.FinishedRunConsumesExactly : Prop :=
  ∀ (s t : State) (bs : List Byte), s.st = .awaitStart → s.buf = [] → nothingWaiting s →
    reaches bs.length (feed s bs) t → t.st = .done →
    ∃ d rest : List Byte, bs = d ++ t.buf ++ rest ∧ (∀ b ∈ d, b ≠ 0x68) ∧ byteAt t.buf 0 = 0x68 ∧
      t.buf.length = 12 + (byteAt t.buf 9).toNat ∧ t.transport = rest.map some

/-- R112 (derived): `RXSTART m` and the bytes of an encoded frame, with any bytes other than `0x68` before them and idle
polls anywhere below the maximum, end in `DONE` with the frame less its preamble, and `DEC` of it gives back what was
encoded. That idle polls after the last byte are steps too, in which nothing of the block changes, is the model's answer
to R95's "no step" (log entry 8). -/
def Obligations.EncodedFrameIsReassembledAndDecoded : Prop :=
  ∀ (s : State) (m : IdleCount) (a : Address) (c n : Byte) (p f noise : List Byte) (answers : List (Option Byte)),
    running s = false → nothingWaiting s → m ≠ 0 → p.length = n.toNat →
    exec (.enc a c n p) s = .next { s with result := .frame f } → (∀ b ∈ noise, b ≠ 0x68) →
    answeredBytes answers = noise ++ f → idleGapsBelow m.toNat 0 answers = true →
      ∃ t, reaches (1 + answers.length) (pollWith (issue s (.rxstart m)) answers) t ∧ t.st = .done ∧
        t.buf = f.drop 2 ∧ exec (.dec t.buf) t = .next { t with result := .decoded a c p true }
end

