-- ==== Sys2Proof/Laws/Codec.lean ====
section
/-! SUPPORT. The checksum and the obfuscation as arithmetic, and lengths and positions in an encoded frame. -/

namespace Sys2Proof.Machine

/-- R69: `sum8` is the integer sum of the bytes, modulo 256. -/
theorem sum8_toNat (s : List Byte) : (sum8 s).toNat = (s.map BitVec.toNat).sum % 256 := by
  induction s with
  | nil => rfl
  | cons b s ih => simp [sum8, add8, BitVec.toNat_add, ih]

theorem sum8_append (s t : List Byte) : sum8 (s ++ t) = add8 (sum8 s) (sum8 t) := by
  induction s with
  | nil => simp [sum8, add8]
  | cons b s ih => simp only [List.cons_append, sum8, ih, add8, BitVec.add_assoc]

/-- R71: the comparison as integers. -/
theorem checksumValid_iff (s : List Byte) (c : Byte) :
    checksumValid s c = true ↔ (s.map BitVec.toNat).sum % 256 = c.toNat := by
  rw [checksumValid, beq_iff_eq, ← BitVec.toNat_inj, sum8_toNat]

@[simp] theorem frameBody_length (a : Address) (c n : Byte) (p : List Byte) :
    (frameBody a c n p).length = 10 + p.length := by
  simp [frameBody, addressBytes]; omega

@[simp] theorem encodeFrame_length (a : Address) (c n : Byte) (p : List Byte) :
    (encodeFrame a c n p).length = 14 + p.length := by
  simp [encodeFrame]; omega

/-- R81: stripping removes a run of `0xFE` in front of anything that does not begin with one. -/
theorem stripPreamble_replicate (k : Nat) (g : List Byte) (h : g.head? ≠ some Config.pre) :
    stripPreamble (List.replicate k Config.pre ++ g) = g := by
  induction k with
  | zero =>
    cases g with
    | nil => rfl
    | cons b g =>
      have hb : b ≠ Config.pre := fun e => h (by simp [e])
      simp [stripPreamble, hb]
  | succ k ih => simpa [stripPreamble, List.replicate_succ] using ih

/-- R81: every operand is a run of `0xFE` and what stripping leaves. -/
theorem exists_replicate_stripPreamble (f : List Byte) :
    ∃ k, f = List.replicate k Config.pre ++ stripPreamble f ∧ (stripPreamble f).head? ≠ some Config.pre := by
  induction f with
  | nil => exact ⟨0, by simp [stripPreamble]⟩
  | cons b f ih =>
    by_cases hb : b = Config.pre
    · obtain ⟨k, hk, hh⟩ := ih
      have hs : stripPreamble (b :: f) = stripPreamble f := by simp [stripPreamble, hb]
      refine ⟨k + 1, ?_, by rw [hs]; exact hh⟩
      rw [hs, List.replicate_succ, List.cons_append, ← hk, hb]
    · have hs : stripPreamble (b :: f) = b :: f := by simp [stripPreamble, hb]
      exact ⟨0, by simp [hs], by simp [hs, hb]⟩

end Sys2Proof.Machine
end

