-- ==== Sys2Proof/Laws/Decode.lean ====
section
/-! SUPPORT. What the decoder reads back of each operand that the encoder writes, and of the dispatch byte. -/

namespace Sys2Proof

/-- R56: the selector and the `st` field of a dispatch byte are the two nibbles it was made of. -/
@[simp] theorem selectorOf_dispatchByte (st op : BitVec 4) : selectorOf (dispatchByte st op) = op := by
  revert st op; decide

@[simp] theorem stFieldOf_dispatchByte (st op : BitVec 4) : stFieldOf (dispatchByte st op) = st := by
  revert st op; decide

@[simp] theorem decode_dispatchByte (st op : BitVec 4) (bs : List Byte) :
    decode (dispatchByte st op :: bs) = decodeOp st op bs := by
  simp [decode]

@[simp] theorem takeByte_cons (b : Byte) (bs : List Byte) : takeByte (b :: bs) = .ok (b, bs) := rfl

theorem takeAddress_encodeAddress (a : Address) (bs : List Byte) :
    takeAddress (encodeAddress a ++ bs) = .ok (a, bs) := rfl

theorem takeCount_encodeCount (m : IdleCount) (bs : List Byte) :
    takeCount (encodeCount m ++ bs) = .ok (m, bs) := by
  have h : m.toNat < 65536 := m.isLt
  simp only [takeCount, encodeCount, List.cons_append, List.nil_append, BitVec.toNat_ofNat, Except.ok.injEq,
    Prod.mk.injEq, and_true]
  apply BitVec.eq_of_toNat_eq
  rw [BitVec.toNat_ofNat, Nat.mod_eq_of_lt (by simp only [Config.idleW]; omega)]
  omega

theorem takeSeq_encodeSeq (s bs : List Byte) : takeSeq (encodeSeq s ++ bs) = .ok (s, bs) := by
  induction s with
  | nil => cases bs <;> simp [encodeSeq, takeSeq]
  | cons b s ih => simp [encodeSeq, takeSeq, ih, Except.map]

theorem takeBytes_append (p bs : List Byte) : takeBytes p.length (p ++ bs) = .ok (p, bs) := by
  induction p with
  | nil => simp [takeBytes]
  | cons b p ih => simp [takeBytes, ih, Except.map]

/-- R78: the decoder takes exactly as many bytes as it is asked for. -/
theorem takeBytes_length {n : Nat} {bs p rest : List Byte} (h : takeBytes n bs = .ok (p, rest)) : p.length = n := by
  induction n generalizing bs p rest with
  | zero => simp [takeBytes] at h; simp [← h.1]
  | succ n ih =>
    cases bs with
    | nil => simp [takeBytes] at h
    | cons b bs =>
      cases hr : takeBytes n bs with
      | error e => simp [takeBytes, hr, Except.map] at h
      | ok r =>
        obtain ⟨q, left⟩ := r
        simp [takeBytes, hr, Except.map] at h
        simp [← h.1, ih hr]

end Sys2Proof
end

