-- ==== Sys2Proof/Laws/State.lean ====
section
/-! SUPPORT. One lemma per field per named update of the state, so that no proof unfolds a record update. -/

namespace Sys2Proof.Machine

@[simp] theorem returning_st (s : State) (r : Result) : (returning s r).st = s.st := rfl
@[simp] theorem returning_rem (s : State) (r : Result) : (returning s r).rem = s.rem := rfl
@[simp] theorem returning_buf (s : State) (r : Result) : (returning s r).buf = s.buf := rfl
@[simp] theorem returning_idle (s : State) (r : Result) : (returning s r).idle = s.idle := rfl
@[simp] theorem returning_idleMax (s : State) (r : Result) : (returning s r).idleMax = s.idleMax := rfl
@[simp] theorem returning_turns (s : State) (r : Result) : (returning s r).turns = s.turns := rfl
@[simp] theorem returning_hostOps (s : State) (r : Result) : (returning s r).hostOps = s.hostOps := rfl
@[simp] theorem returning_transport (s : State) (r : Result) : (returning s r).transport = s.transport := rfl
@[simp] theorem returning_result (s : State) (r : Result) : (returning s r).result = r := rfl

@[simp] theorem accumulate_st (s : State) (b rem : Byte) (st : St) : (accumulate s b rem st).st = st := rfl
@[simp] theorem accumulate_rem (s : State) (b rem : Byte) (st : St) : (accumulate s b rem st).rem = rem := rfl
@[simp] theorem accumulate_buf (s : State) (b rem : Byte) (st : St) : (accumulate s b rem st).buf = s.buf ++ [b] := rfl
@[simp] theorem accumulate_idle (s : State) (b rem : Byte) (st : St) : (accumulate s b rem st).idle = s.idle := rfl
@[simp] theorem accumulate_idleMax (s : State) (b rem : Byte) (st : St) : (accumulate s b rem st).idleMax = s.idleMax := rfl
@[simp] theorem accumulate_turns (s : State) (b rem : Byte) (st : St) : (accumulate s b rem st).turns = s.turns := rfl
@[simp] theorem accumulate_hostOps (s : State) (b rem : Byte) (st : St) : (accumulate s b rem st).hostOps = s.hostOps := rfl
@[simp] theorem accumulate_transport (s : State) (b rem : Byte) (st : St) : (accumulate s b rem st).transport = s.transport := rfl
@[simp] theorem accumulate_result (s : State) (b rem : Byte) (st : St) : (accumulate s b rem st).result = s.result := rfl

@[simp] theorem countDown_st (s : State) (b : Byte) (next : St) : (countDown s b next).st = if s.rem - 1 = 0 then next else s.st := rfl
@[simp] theorem countDown_rem (s : State) (b : Byte) (next : St) : (countDown s b next).rem = s.rem - 1 := rfl
@[simp] theorem countDown_buf (s : State) (b : Byte) (next : St) : (countDown s b next).buf = s.buf ++ [b] := rfl
@[simp] theorem countDown_idle (s : State) (b : Byte) (next : St) : (countDown s b next).idle = s.idle := rfl
@[simp] theorem countDown_idleMax (s : State) (b : Byte) (next : St) : (countDown s b next).idleMax = s.idleMax := rfl
@[simp] theorem countDown_turns (s : State) (b : Byte) (next : St) : (countDown s b next).turns = s.turns := rfl
@[simp] theorem countDown_hostOps (s : State) (b : Byte) (next : St) : (countDown s b next).hostOps = s.hostOps := rfl
@[simp] theorem countDown_transport (s : State) (b : Byte) (next : St) : (countDown s b next).transport = s.transport := rfl
@[simp] theorem countDown_result (s : State) (b : Byte) (next : St) : (countDown s b next).result = s.result := rfl

@[simp] theorem clearIdle_st (s : State) : (clearIdle s).st = s.st := rfl
@[simp] theorem clearIdle_rem (s : State) : (clearIdle s).rem = s.rem := rfl
@[simp] theorem clearIdle_buf (s : State) : (clearIdle s).buf = s.buf := rfl
@[simp] theorem clearIdle_idle (s : State) : (clearIdle s).idle = 0 := rfl
@[simp] theorem clearIdle_idleMax (s : State) : (clearIdle s).idleMax = s.idleMax := rfl
@[simp] theorem clearIdle_turns (s : State) : (clearIdle s).turns = s.turns := rfl
@[simp] theorem clearIdle_hostOps (s : State) : (clearIdle s).hostOps = s.hostOps := rfl
@[simp] theorem clearIdle_transport (s : State) : (clearIdle s).transport = s.transport := rfl
@[simp] theorem clearIdle_result (s : State) : (clearIdle s).result = s.result := rfl

@[simp] theorem beginRun_st (s : State) (m : IdleCount) : (beginRun s m).st = .awaitStart := rfl
@[simp] theorem beginRun_rem (s : State) (m : IdleCount) : (beginRun s m).rem = 0 := rfl
@[simp] theorem beginRun_buf (s : State) (m : IdleCount) : (beginRun s m).buf = [] := rfl
@[simp] theorem beginRun_idle (s : State) (m : IdleCount) : (beginRun s m).idle = 0 := rfl
@[simp] theorem beginRun_idleMax (s : State) (m : IdleCount) : (beginRun s m).idleMax = m := rfl
@[simp] theorem beginRun_turns (s : State) (m : IdleCount) : (beginRun s m).turns = s.turns := rfl
@[simp] theorem beginRun_hostOps (s : State) (m : IdleCount) : (beginRun s m).hostOps = s.hostOps := rfl
@[simp] theorem beginRun_transport (s : State) (m : IdleCount) : (beginRun s m).transport = s.transport := rfl
@[simp] theorem beginRun_result (s : State) (m : IdleCount) : (beginRun s m).result = s.result := rfl

@[simp] theorem timeOut_st (s : State) : (timeOut s).st = .noFrame := rfl
@[simp] theorem timeOut_rem (s : State) : (timeOut s).rem = 0 := rfl
@[simp] theorem timeOut_buf (s : State) : (timeOut s).buf = [] := rfl
@[simp] theorem timeOut_idle (s : State) : (timeOut s).idle = 0 := rfl
@[simp] theorem timeOut_idleMax (s : State) : (timeOut s).idleMax = s.idleMax := rfl
@[simp] theorem timeOut_turns (s : State) : (timeOut s).turns = s.turns := rfl
@[simp] theorem timeOut_hostOps (s : State) : (timeOut s).hostOps = s.hostOps := rfl
@[simp] theorem timeOut_transport (s : State) : (timeOut s).transport = s.transport := rfl
@[simp] theorem timeOut_result (s : State) : (timeOut s).result = s.result := rfl

@[simp] theorem countIdle_st (s : State) : (countIdle s).st = s.st := rfl
@[simp] theorem countIdle_rem (s : State) : (countIdle s).rem = s.rem := rfl
@[simp] theorem countIdle_buf (s : State) : (countIdle s).buf = s.buf := rfl
@[simp] theorem countIdle_idle (s : State) : (countIdle s).idle = s.idle + 1 := rfl
@[simp] theorem countIdle_idleMax (s : State) : (countIdle s).idleMax = s.idleMax := rfl
@[simp] theorem countIdle_turns (s : State) : (countIdle s).turns = s.turns := rfl
@[simp] theorem countIdle_hostOps (s : State) : (countIdle s).hostOps = s.hostOps := rfl
@[simp] theorem countIdle_transport (s : State) : (countIdle s).transport = s.transport := rfl
@[simp] theorem countIdle_result (s : State) : (countIdle s).result = s.result := rfl

@[simp] theorem applyReset_st (s : State) : (applyReset s).st = .off := rfl
@[simp] theorem applyReset_rem (s : State) : (applyReset s).rem = 0 := rfl
@[simp] theorem applyReset_buf (s : State) : (applyReset s).buf = [] := rfl
@[simp] theorem applyReset_idle (s : State) : (applyReset s).idle = 0 := rfl
@[simp] theorem applyReset_idleMax (s : State) : (applyReset s).idleMax = 1 := rfl
@[simp] theorem applyReset_turns (s : State) : (applyReset s).turns = s.turns := rfl
@[simp] theorem applyReset_hostOps (s : State) : (applyReset s).hostOps = s.hostOps := rfl
@[simp] theorem applyReset_transport (s : State) : (applyReset s).transport = s.transport := rfl
@[simp] theorem applyReset_result (s : State) : (applyReset s).result = s.result := rfl

@[simp] theorem issue_st (s : State) (i : Instr) : (issue s i).st = s.st := rfl
@[simp] theorem issue_rem (s : State) (i : Instr) : (issue s i).rem = s.rem := rfl
@[simp] theorem issue_buf (s : State) (i : Instr) : (issue s i).buf = s.buf := rfl
@[simp] theorem issue_idle (s : State) (i : Instr) : (issue s i).idle = s.idle := rfl
@[simp] theorem issue_idleMax (s : State) (i : Instr) : (issue s i).idleMax = s.idleMax := rfl
@[simp] theorem issue_turns (s : State) (i : Instr) : (issue s i).turns = s.turns ++ [.host] := rfl
@[simp] theorem issue_hostOps (s : State) (i : Instr) : (issue s i).hostOps = s.hostOps ++ encode i := rfl
@[simp] theorem issue_transport (s : State) (i : Instr) : (issue s i).transport = s.transport := rfl
@[simp] theorem issue_result (s : State) (i : Instr) : (issue s i).result = s.result := rfl

@[simp] theorem pollWith_st (s : State) (xs : List (Option Byte)) : (pollWith s xs).st = s.st := rfl
@[simp] theorem pollWith_rem (s : State) (xs : List (Option Byte)) : (pollWith s xs).rem = s.rem := rfl
@[simp] theorem pollWith_buf (s : State) (xs : List (Option Byte)) : (pollWith s xs).buf = s.buf := rfl
@[simp] theorem pollWith_idle (s : State) (xs : List (Option Byte)) : (pollWith s xs).idle = s.idle := rfl
@[simp] theorem pollWith_idleMax (s : State) (xs : List (Option Byte)) : (pollWith s xs).idleMax = s.idleMax := rfl
@[simp] theorem pollWith_turns (s : State) (xs : List (Option Byte)) : (pollWith s xs).turns = s.turns ++ xs.map (fun _ => .poll) := rfl
@[simp] theorem pollWith_hostOps (s : State) (xs : List (Option Byte)) : (pollWith s xs).hostOps = s.hostOps := rfl
@[simp] theorem pollWith_transport (s : State) (xs : List (Option Byte)) : (pollWith s xs).transport = s.transport ++ xs := rfl
@[simp] theorem pollWith_result (s : State) (xs : List (Option Byte)) : (pollWith s xs).result = s.result := rfl

@[simp] theorem reset_st : State.reset.st = .off := rfl
@[simp] theorem reset_rem : State.reset.rem = 0 := rfl
@[simp] theorem reset_buf : State.reset.buf = [] := rfl
@[simp] theorem reset_idle : State.reset.idle = 0 := rfl
@[simp] theorem reset_idleMax : State.reset.idleMax = 1 := rfl
@[simp] theorem reset_turns : State.reset.turns = [] := rfl
@[simp] theorem reset_hostOps : State.reset.hostOps = [] := rfl
@[simp] theorem reset_transport : State.reset.transport = [] := rfl
@[simp] theorem reset_result : State.reset.result = .none := rfl

/-- Returning twice is returning the last value: the result port latches nothing (R20). -/
@[simp] theorem returning_returning (s : State) (r q : Result) : returning (returning s r) q = returning s q := rfl

/-- The flags read `st` alone (R21). -/
@[simp] theorem running_returning (s : State) (r : Result) : running (returning s r) = running s := rfl

end Sys2Proof.Machine
end

