-- ==== Sys2Proof/Laws/Ops.lean ====
section
/-! SUPPORT. For each shared operation, once, everything it can do; and the laws of the frame buffer as memory. -/

namespace Sys2Proof.Machine

/-- R15, R62: the numbering of `st` has an inverse. -/
@[simp] theorem stOfCode_stCode (st : St) : stOfCode (stCode st) = some st := by
  cases st <;> rfl

/-- R17: a halted state is one of three. -/
theorem running_eq_false_iff (s : State) : running s = false ↔ s.st = .off ∨ s.st = .done ∨ s.st = .noFrame := by
  cases h : s.st <;> simp [running, stRunning, h]

/-- R56, R94, R95: everything a row of `RXBYTE` can answer. -/
theorem onRow_cases (row : St) (effect : State → State) (s : State) :
    (s.st = row ∧ onRow row effect s = .next (returning (effect (clearIdle s)) .none)) ∨
      (s.st ≠ row ∧ running s = true ∧ onRow row effect s = .refused (.rowDoesNotApply row s.st)) ∨
      (s.st ≠ row ∧ running s = false ∧ onRow row effect s = .next (returning s .none)) := by
  by_cases h : s.st = row
  · exact .inl ⟨h, by simp [onRow, h]⟩
  · cases hr : running s
    · exact .inr (.inr ⟨h, rfl, by simp [onRow, h, hr]⟩)
    · exact .inr (.inl ⟨h, rfl, by simp [onRow, h, hr]⟩)

/-- R94: a row of `RXBYTE` in its own state. -/
theorem onRow_own {row : St} {s : State} (effect : State → State) (h : s.st = row) :
    onRow row effect s = .next (returning (effect (clearIdle s)) .none) := by
  simp [onRow, h]

/-- R106, R95: everything `RXIDLE` can answer. -/
theorem execRxidle_cases (s : State) :
    (running s = true ∧ s.idle.toNat + 1 = s.idleMax.toNat ∧ execRxidle s = .next (returning (timeOut s) .none)) ∨
      (running s = true ∧ s.idle.toNat + 1 ≠ s.idleMax.toNat ∧ execRxidle s = .next (returning (countIdle s) .none)) ∨
      (running s = false ∧ execRxidle s = .next (returning s .none)) := by
  cases hr : running s
  · exact .inr (.inr ⟨rfl, by simp [execRxidle, hr]⟩)
  · by_cases h : s.idle.toNat + 1 = s.idleMax.toNat
    · exact .inl ⟨rfl, h, by simp [execRxidle, hr, h]⟩
    · exact .inr (.inl ⟨rfl, h, by simp [execRxidle, hr, h]⟩)

/-- R92, R93: everything `RXSTART` can answer. -/
theorem execRxstart_cases (m : IdleCount) (s : State) :
    (m = 0 ∧ execRxstart m s = .refused .idleMaxZero) ∨
      (m ≠ 0 ∧ running s = true ∧ execRxstart m s = .refused .runInProgress) ∨
      (m ≠ 0 ∧ running s = false ∧ execRxstart m s = .next (returning (beginRun s m) .none)) := by
  by_cases h : m = 0
  · exact .inl ⟨h, by simp [execRxstart, h]⟩
  · cases hr : running s
    · exact .inr (.inr ⟨h, rfl, by rw [execRxstart, if_neg h, hr]; rfl⟩)
    · exact .inr (.inl ⟨h, rfl, by rw [execRxstart, if_neg h, hr]; rfl⟩)

/-- R34, R56: the presentation of a byte in a running state decodes to that state's row. -/
theorem decode_pollPresentation_some {st : St} {b : Byte} {i : Instr} (h : rxbyteRow st b = some i) :
    decode (pollPresentation st (some b)) = .ok (i, []) := by
  cases st <;> simp [rxbyteRow] at h <;> subst h <;> simp [pollPresentation] <;> rfl

/-- R34: the presentation of "zero bytes available" decodes to `RXIDLE`. -/
theorem decode_pollPresentation_none (st : St) : decode (pollPresentation st none) = .ok (.rxidle, []) := by
  simp [pollPresentation]; rfl

/-- R17: a running state has a row for every byte. -/
theorem rxbyteRow_of_running {st : St} (b : Byte) (h : stRunning st = true) : ∃ i, rxbyteRow st b = some i := by
  cases st <;> simp [stRunning] at h <;> exact ⟨_, rfl⟩

/-- R34, R95: everything a poll can bring. -/
theorem fetchPoll_cases (s : State) :
    (running s = false ∧ fetchPoll s = .settled (returning s .none)) ∨
      (running s = true ∧ ∃ b rest i, s.transport = some b :: rest ∧ rxbyteRow s.st b = some i ∧
        fetchPoll s = .run i { s with transport := rest }) ∨
      (running s = true ∧ s.transport.headD none = none ∧
        fetchPoll s = .run .rxidle { s with transport := s.transport.tail }) := by
  cases hr : running s with
  | false => exact .inl ⟨rfl, by simp [fetchPoll, hr]⟩
  | true =>
    match ht : s.transport with
    | [] => exact .inr (.inr ⟨rfl, rfl, by simp [fetchPoll, hr, ht, decode_pollPresentation_none]⟩)
    | none :: rest => exact .inr (.inr ⟨rfl, rfl, by simp [fetchPoll, hr, ht, decode_pollPresentation_none]⟩)
    | some b :: rest =>
      obtain ⟨i, hi⟩ := rxbyteRow_of_running b hr
      exact .inr (.inl ⟨rfl, b, rest, i, rfl, hi, by simp [fetchPoll, hr, ht, decode_pollPresentation_some hi]⟩)

/-- R55, R72: everything a host operation's turn can bring that is not refused. -/
theorem fetchHost_run {s t : State} {i : Instr} (h : fetchHost s = .run i t) :
    (s.hostOps = [] ∧ i = .nop ∧ t = s) ∨
      ∃ d operands rest, s.hostOps = d :: operands ∧ isPollSelector (selectorOf d) = false ∧
        decode (dispatchByte (stCode s.st) (selectorOf d) :: operands) = .ok (i, rest) ∧
        t = { s with hostOps := rest } := by
  unfold fetchHost at h
  split at h
  · injection h with h1 h2; exact .inl ⟨‹_›, h1.symm, h2.symm⟩
  · rename_i d operands heq
    cases hp : isPollSelector (selectorOf d) with
    | true => simp [hp] at h
    | false =>
      simp only [hp, Bool.false_eq_true, if_false] at h
      split at h
      · rename_i j rest hd
        injection h with h1 h2
        subst h1
        exact .inr ⟨d, operands, rest, heq, hp, hd, h2.symm⟩
      · cases h

/-- A host operation's turn never settles by itself. -/
theorem fetchHost_ne_settled (s t : State) : fetchHost s ≠ .settled t := by
  intro h
  unfold fetchHost at h
  split at h
  · cases h
  · split at h
    · cases h
    · split at h <;> cases h

/-- R98, R102: the last byte of a counted field. -/
theorem countDown_last {s : State} (b : Byte) (next : St) (h : s.rem - 1 = 0) :
    countDown s b next = accumulate s b 0 next := by
  rw [countDown, if_pos h, h]

/-- R98, R102: a byte of a counted field that is not its last. -/
theorem countDown_more {s : State} (b : Byte) (next : St) (h : s.rem - 1 ≠ 0) :
    countDown s b next = accumulate s b (s.rem - 1) s.st := by
  rw [countDown, if_neg h]

/-- R31: reading a byte of the frame buffer before the end is not changed by an append; the appended byte stands at the
end (R32). -/
theorem readBuf_accumulate (s : State) (b rem : Byte) (st : St) (i : Nat) :
    readBuf (accumulate s b rem st) i = if i = s.buf.length then some b else readBuf s i := by
  simp only [readBuf, accumulate_buf]
  by_cases h : i < s.buf.length
  · rw [List.getElem?_append_left h, if_neg (by omega)]
  · by_cases h' : i = s.buf.length
    · simp [h']
    · rw [if_neg h', List.getElem?_eq_none (by simp; omega), List.getElem?_eq_none (by omega)]

theorem cellsRise_cellsFrom (i : Nat) (bs : List Byte) : cellsRise (cellsFrom i bs) = true := by
  induction bs generalizing i with
  | nil => rfl
  | cons b bs ih =>
    cases bs with
    | nil => rfl
    | cons c cs => simpa [cellsFrom, cellsRise] using ih (i + 1)

/-- The canonical form of the frame buffer holds of every buffer: a byte's address is its position, so there is nothing
a write could bring out of order. In particular every operation keeps it and reset has it. -/
theorem memory_wf (buf : List Byte) : Memory.wf buf = true := cellsRise_cellsFrom 0 buf

theorem accumulate_keeps_wf (s : State) (b rem : Byte) (st : St) : Memory.wf (accumulate s b rem st).buf = true :=
  memory_wf _

theorem beginRun_keeps_wf (s : State) (m : IdleCount) : Memory.wf (beginRun s m).buf = true := memory_wf _

theorem timeOut_keeps_wf (s : State) : Memory.wf (timeOut s).buf = true := memory_wf _

theorem applyReset_keeps_wf (s : State) : Memory.wf (applyReset s).buf = true := memory_wf _

theorem reset_memory_wf : Memory.wf State.reset.buf = true := memory_wf _

end Sys2Proof.Machine
end

