-- ==== Sys2Proof/Laws/PerInstr.lean ====
section
/-! SUPPORT. A law stated per operation: what the encoder writes is the operation's row of spec/opcode_table.json. -/

set_option Elab.async false

namespace Sys2Proof.Laws.TableRow

/-- The row's match and mask, as spec/opcode_table.json has them. -/
def rowOf (i : Instr) : Byte × Byte :=
  match i with
  | .nop => (0x00#8, 0x0F#8)
  | .rev6 _ => (0x01#8, 0x0F#8)
  | .obf _ => (0x02#8, 0x0F#8)
  | .deobf _ => (0x03#8, 0x0F#8)
  | .cksum _ => (0x04#8, 0x0F#8)
  | .ckvfy _ _ => (0x05#8, 0x0F#8)
  | .enc _ _ _ _ => (0x06#8, 0x0F#8)
  | .dec _ => (0x07#8, 0x0F#8)
  | .rxstart _ => (0x08#8, 0x0F#8)
  | .rxbyteAwaitStart _ => (0x19#8, 0xFF#8)
  | .rxbyteInAddress _ => (0x29#8, 0xFF#8)
  | .rxbyteAwaitSecondSync _ => (0x39#8, 0xFF#8)
  | .rxbyteInControl _ => (0x49#8, 0xFF#8)
  | .rxbyteInLength _ => (0x59#8, 0xFF#8)
  | .rxbyteInPayload _ => (0x69#8, 0xFF#8)
  | .rxbyteInChecksum _ => (0x79#8, 0xFF#8)
  | .rxbyteInEof _ => (0x89#8, 0xFF#8)
  | .rxidle => (0x0A#8, 0x0F#8)
  | .reservedB => (0x0B#8, 0x0F#8)
  | .reservedC => (0x0C#8, 0x0F#8)
  | .reservedD => (0x0D#8, 0x0F#8)
  | .reservedE => (0x0E#8, 0x0F#8)
  | .reservedF => (0x0F#8, 0x0F#8)

/-- The dispatch byte of an operation's presentation matches the operation's row under the row's mask. -/
def Statement (i : Instr) : Prop := ∃ d operands, encode i = d :: operands ∧ d &&& (rowOf i).2 = (rowOf i).1

theorem nop : Statement .nop := ⟨_, _, rfl, by simp only [rowOf]; decide⟩
theorem rev6 (a : Address) : Statement (.rev6 a) := ⟨_, _, rfl, by simp only [rowOf]; decide⟩
theorem obf (b : Byte) : Statement (.obf b) := ⟨_, _, rfl, by simp only [rowOf]; decide⟩
theorem deobf (w : Byte) : Statement (.deobf w) := ⟨_, _, rfl, by simp only [rowOf]; decide⟩
theorem cksum (s : List Byte) : Statement (.cksum s) := ⟨_, _, rfl, by simp only [rowOf]; decide⟩
theorem ckvfy (s : List Byte) (c : Byte) : Statement (.ckvfy s c) := ⟨_, _, rfl, by simp only [rowOf]; decide⟩
theorem enc (a : Address) (c : Byte) (n : Byte) (p : List Byte) : Statement (.enc a c n p) := ⟨_, _, rfl, by simp only [rowOf]; decide⟩
theorem dec (f : List Byte) : Statement (.dec f) := ⟨_, _, rfl, by simp only [rowOf]; decide⟩
theorem rxstart (m : IdleCount) : Statement (.rxstart m) := ⟨_, _, rfl, by simp only [rowOf]; decide⟩
theorem rxbyteAwaitStart (b : Byte) : Statement (.rxbyteAwaitStart b) := ⟨_, _, rfl, by simp only [rowOf]; decide⟩
theorem rxbyteInAddress (b : Byte) : Statement (.rxbyteInAddress b) := ⟨_, _, rfl, by simp only [rowOf]; decide⟩
theorem rxbyteAwaitSecondSync (b : Byte) : Statement (.rxbyteAwaitSecondSync b) := ⟨_, _, rfl, by simp only [rowOf]; decide⟩
theorem rxbyteInControl (b : Byte) : Statement (.rxbyteInControl b) := ⟨_, _, rfl, by simp only [rowOf]; decide⟩
theorem rxbyteInLength (b : Byte) : Statement (.rxbyteInLength b) := ⟨_, _, rfl, by simp only [rowOf]; decide⟩
theorem rxbyteInPayload (b : Byte) : Statement (.rxbyteInPayload b) := ⟨_, _, rfl, by simp only [rowOf]; decide⟩
theorem rxbyteInChecksum (b : Byte) : Statement (.rxbyteInChecksum b) := ⟨_, _, rfl, by simp only [rowOf]; decide⟩
theorem rxbyteInEof (b : Byte) : Statement (.rxbyteInEof b) := ⟨_, _, rfl, by simp only [rowOf]; decide⟩
theorem rxidle : Statement .rxidle := ⟨_, _, rfl, by simp only [rowOf]; decide⟩
theorem reservedB : Statement .reservedB := ⟨_, _, rfl, by simp only [rowOf]; decide⟩
theorem reservedC : Statement .reservedC := ⟨_, _, rfl, by simp only [rowOf]; decide⟩
theorem reservedD : Statement .reservedD := ⟨_, _, rfl, by simp only [rowOf]; decide⟩
theorem reservedE : Statement .reservedE := ⟨_, _, rfl, by simp only [rowOf]; decide⟩
theorem reservedF : Statement .reservedF := ⟨_, _, rfl, by simp only [rowOf]; decide⟩

end Sys2Proof.Laws.TableRow
end

