-- ==== Sys2Proof/Laws/Step.lean ====
section
/-! SUPPORT. The rows of `RXBYTE` as one effect per state, which operations the host's turn can bring, and once for all
what a step can do to the block. -/

namespace Sys2Proof.Machine

/-- R97 to R104: what `RXBYTE b` does in each state after `idle <- 0`; nothing in a halted one. -/
def rowEffect (st : St) (b : Byte) (s : State) : State :=
  match st with
  | .off => s
  | .awaitStart => if b = Config.sync then accumulate s b (BitVec.ofNat 8 Config.addrLen) .inAddress else s
  | .inAddress => countDown s b .awaitSecondSync
  | .awaitSecondSync => accumulate s b s.rem .inControl
  | .inControl => accumulate s b s.rem .inLength
  | .inLength => if b = 0 then accumulate s b s.rem .inChecksum else accumulate s b b .inPayload
  | .inPayload => countDown s b .inChecksum
  | .inChecksum => accumulate s b s.rem .inEof
  | .inEof => accumulate s b s.rem .done
  | .done => s
  | .noFrame => s

/-- R56: each row's meaning is the shared row operation with that state's effect. -/
theorem exec_of_rxbyteRow {st : St} {b : Byte} {i : Instr} (h : rxbyteRow st b = some i) (s : State) :
    exec i s = onRow st (rowEffect st b) s := by
  cases st <;> simp only [rxbyteRow, Option.some.injEq, reduceCtorEq] at h <;> subst h <;> rfl

/-- R94, R97 to R104: the row of the current state answers a next state. -/
theorem exec_own_row {b : Byte} {i : Instr} {s : State} (h : rxbyteRow s.st b = some i) :
    exec i s = .next (returning (rowEffect s.st b (clearIdle s)) .none) := by
  rw [exec_of_rxbyteRow h, onRow_own _ rfl]

/-- R95: a state with a row is running. -/
theorem running_of_rxbyteRow {st : St} {b : Byte} {i : Instr} (h : rxbyteRow st b = some i) : stRunning st = true := by
  cases st <;> simp [rxbyteRow] at h <;> rfl

/-- R55: the operations that the host can issue. -/
def isHostOp (i : Instr) : Bool :=
  match i with
  | .nop => true
  | .rev6 _ => true
  | .obf _ => true
  | .deobf _ => true
  | .cksum _ => true
  | .ckvfy _ _ => true
  | .enc _ _ _ _ => true
  | .dec _ => true
  | .rxstart _ => true
  | .rxbyteAwaitStart _ => false
  | .rxbyteInAddress _ => false
  | .rxbyteAwaitSecondSync _ => false
  | .rxbyteInControl _ => false
  | .rxbyteInLength _ => false
  | .rxbyteInPayload _ => false
  | .rxbyteInChecksum _ => false
  | .rxbyteInEof _ => false
  | .rxidle => false
  | .reservedB => true
  | .reservedC => true
  | .reservedD => true
  | .reservedE => true
  | .reservedF => true

theorem exists_of_map_eq_ok {α β ε : Type} {x : Except ε α} {f : α → β} {y : β} (h : x.map f = .ok y) :
    ∃ a, x = .ok a ∧ f a = y := by
  cases x with
  | error e => cases h
  | ok a => exact ⟨a, rfl, by simpa [Except.map] using h⟩

/-- R55: a selector other than those of `RXBYTE` and `RXIDLE` decodes to an operation that the host can issue. -/
theorem isHostOp_of_decodeOp {st op : BitVec 4} {bs rest : List Byte} {i : Instr}
    (hp : isPollSelector op = false) (h : decodeOp st op bs = .ok (i, rest)) : isHostOp i = true := by
  have h9 : op.toNat ≠ 9 := fun e => by
    simp [isPollSelector, BitVec.eq_of_toNat_eq (y := 9#4) e] at hp
  have hA : op.toNat ≠ 10 := fun e => by
    simp [isPollSelector, BitVec.eq_of_toNat_eq (y := 10#4) e] at hp
  unfold decodeOp decodeCkvfy decodeEnc at h
  split at h
  any_goals (simp only [Except.ok.injEq, Prod.mk.injEq] at h; obtain ⟨rfl, -⟩ := h; rfl)
  any_goals (obtain ⟨_, -, h⟩ := exists_of_map_eq_ok h; simp only [Prod.mk.injEq] at h; obtain ⟨rfl, -⟩ := h; rfl)
  · split at h
    · cases h
    · obtain ⟨_, -, h⟩ := exists_of_map_eq_ok h; simp only [Prod.mk.injEq] at h; obtain ⟨rfl, -⟩ := h; rfl
  · split at h
    · obtain ⟨_, -, h⟩ := exists_of_map_eq_ok h; simp only [Prod.mk.injEq] at h; obtain ⟨rfl, -⟩ := h; rfl
    · cases h
  · exact absurd ‹_› h9
  · exact absurd ‹_› hA

/-- R43, R92: what an operation of the host can do to the block: nothing, or begin a run. -/
theorem exec_hostOp_cases {i : Instr} {s t : State} (hi : isHostOp i = true) (h : exec i s = .next t) :
    (∃ r, t = returning s r) ∨
      ∃ m, i = .rxstart m ∧ m ≠ 0 ∧ running s = false ∧ t = returning (beginRun s m) .none := by
  cases i with
  | rxstart m =>
    obtain ⟨-, he⟩ | ⟨-, -, he⟩ | ⟨hm, hr, he⟩ := execRxstart_cases m s
    · simp [exec, he] at h
    · simp [exec, he] at h
    · simp only [exec, he, Host.Outcome.next.injEq] at h
      exact .inr ⟨m, rfl, hm, hr, h.symm⟩
  | enc a c n p =>
    simp only [exec, execEnc] at h
    split at h
    · injection h with h; exact .inl ⟨_, h.symm⟩
    · cases h
  | reservedB => cases h
  | reservedC => cases h
  | reservedD => cases h
  | reservedE => cases h
  | reservedF => cases h
  | nop => injection h with h; exact .inl ⟨_, h.symm⟩
  | rev6 a => injection h with h; exact .inl ⟨_, h.symm⟩
  | obf b => injection h with h; exact .inl ⟨_, h.symm⟩
  | deobf w => injection h with h; exact .inl ⟨_, h.symm⟩
  | cksum q => injection h with h; exact .inl ⟨_, h.symm⟩
  | ckvfy q c => injection h with h; exact .inl ⟨_, h.symm⟩
  | dec f => injection h with h; exact .inl ⟨_, h.symm⟩
  | _ => cases hi

/-- What a step can do to the block: nothing; `RESET`; the begin of a run on the host's turn; and on the transport's
turn while running, a byte in the row of the current state, or an idle poll that counts or ends the run. -/
inductive BlockStep (s t : State) : Prop where
  | same (h : sameBlock s t)
  | reset (hs : s.turns.head? = some .reset) (h : sameBlock (applyReset s) t)
  | started (m : IdleCount) (hs : s.turns.head? = some .host) (hm : m ≠ 0) (hr : running s = false)
      (h : sameBlock (beginRun s m) t)
  | byte (b : Byte) (hs : s.turns.head? = some .poll) (hr : running s = true)
      (hb : s.transport.head? = some (some b)) (h : sameBlock (rowEffect s.st b (clearIdle s)) t)
  | idle (hs : s.turns.head? = some .poll) (hr : running s = true) (hb : s.transport.headD none = none)
      (hi : s.idle.toNat + 1 ≠ s.idleMax.toNat) (h : sameBlock (countIdle s) t)
  | timeOut (hs : s.turns.head? = some .poll) (hr : running s = true) (hb : s.transport.headD none = none)
      (hi : s.idle.toNat + 1 = s.idleMax.toNat) (h : sameBlock (timeOut s) t)

/-- R32: a row's effect on the block reads nothing but the block. -/
theorem sameBlock_rowEffect {s t : State} (st : St) (b : Byte) (h : sameBlock s t) :
    sameBlock (rowEffect st b (clearIdle s)) (rowEffect st b (clearIdle t)) := by
  cases s
  cases t
  obtain ⟨rfl, rfl, rfl, rfl, rfl⟩ := h
  cases st <;> simp only [rowEffect] <;> (try split) <;> exact ⟨rfl, rfl, rfl, rfl, rfl⟩

/-- Once for all, what a step can do to the block. -/
theorem step_cases {s t : State} (h : step s = .next t) : BlockStep s t := by
  unfold step fetch at h
  match hs : s.turns with
  | [] =>
    simp only [hs, exec, execNop, Host.Outcome.next.injEq] at h
    subst h; exact .same ⟨rfl, rfl, rfl, rfl, rfl⟩
  | .status r :: ts =>
    simp only [hs] at h
    cases hv : readStatus r s with
    | error e => simp [hv] at h
    | ok v =>
      simp only [hv, Host.Outcome.next.injEq] at h
      subst h; exact .same ⟨rfl, rfl, rfl, rfl, rfl⟩
  | .reset :: ts =>
    simp only [hs, Host.Outcome.next.injEq] at h
    subst h; exact .reset (by rw [hs]; rfl) ⟨rfl, rfl, rfl, rfl, rfl⟩
  | .host :: ts =>
    simp only [hs] at h
    cases hf : fetchHost { s with turns := ts } with
    | settled u => exact absurd hf (fetchHost_ne_settled _ _)
    | refuse r => simp [hf] at h
    | run i u =>
      simp only [hf] at h
      have hu : sameBlock s u ∧ isHostOp i = true := by
        obtain ⟨-, rfl, rfl⟩ | ⟨d, ops, rest, -, hp, hd, rfl⟩ := fetchHost_run hf
        · exact ⟨⟨rfl, rfl, rfl, rfl, rfl⟩, rfl⟩
        · rw [decode_dispatchByte] at hd
          exact ⟨⟨rfl, rfl, rfl, rfl, rfl⟩, isHostOp_of_decodeOp hp hd⟩
      obtain ⟨⟨h1, h2, h3, h4, h5⟩, hi⟩ := hu
      obtain ⟨r, rfl⟩ | ⟨m, -, hm, hr, rfl⟩ := exec_hostOp_cases hi h
      · exact .same ⟨h1, h2, h3, h4, h5⟩
      · have hr' : running s = false := by simpa [running, h1] using hr
        exact .started m (by rw [hs]; rfl) hm hr' ⟨rfl, rfl, rfl, rfl, rfl⟩
  | .poll :: ts =>
    simp only [hs] at h
    obtain ⟨-, hf⟩ | ⟨hr, b, rest, i, ht, hi, hf⟩ | ⟨hr, ht, hf⟩ := fetchPoll_cases { s with turns := ts }
    · simp only [hf, Host.Outcome.next.injEq] at h
      subst h; exact .same ⟨rfl, rfl, rfl, rfl, rfl⟩
    · have hi' : rxbyteRow s.st b = some i := hi
      simp only [hf] at h
      rw [exec_own_row (s := { s with turns := ts, transport := rest }) hi'] at h
      simp only [Host.Outcome.next.injEq] at h
      subst h
      have ht' : s.transport = some b :: rest := ht
      refine .byte b (by rw [hs]; rfl) hr (by rw [ht']; rfl) ?_
      exact sameBlock_rowEffect (t := { s with turns := ts, transport := rest }) s.st b ⟨rfl, rfl, rfl, rfl, rfl⟩
    · simp only [hf, exec] at h
      obtain ⟨-, hi, he⟩ | ⟨-, hi, he⟩ | ⟨hr', -⟩ :=
        execRxidle_cases { s with turns := ts, transport := s.transport.tail }
      · simp only [he, Host.Outcome.next.injEq] at h
        subst h
        exact .timeOut (by rw [hs]; rfl) hr ht hi ⟨rfl, rfl, rfl, rfl, rfl⟩
      · simp only [he, Host.Outcome.next.injEq] at h
        subst h
        exact .idle (by rw [hs]; rfl) hr ht hi ⟨rfl, rfl, rfl, rfl, rfl⟩
      · exact absurd (hr.symm.trans hr') (by decide)

/-- Running a machine for one step more, for any machine of the host's interface. -/
theorem run_succ_eq_next (M : Host.Core) (k : Nat) (s t : M.State) :
    M.run (k + 1) s = .next t ↔ ∃ u, M.step s = .next u ∧ M.run k u = .next t := by
  rw [Host.Core.run]
  cases hs : M.step s with
  | next u => simp
  | fault r => simp
  | refused r => simp

/-- A run of no steps ends where it begins. -/
theorem reaches_zero {s t : State} : reaches 0 s t ↔ s = t :=
  ⟨fun h => Host.Outcome.next.inj h, fun h => congrArg Host.Outcome.next h⟩

/-- A run of `k + 1` steps is a step and a run of `k` steps. -/
theorem reaches_succ {k : Nat} {s t : State} : reaches (k + 1) s t ↔ ∃ u, step s = .next u ∧ reaches k u t :=
  run_succ_eq_next Sys2Proof.core k s t

end Sys2Proof.Machine
end

