-- ==== Sys2Proof/Tests/Slice0.lean ====
section
/-! SUPPORT. Small tests against the vectors of 95_test_vectors.md (V1 to V94), decode tests against words written out
from R56, and for every statement with hypotheses a witness that meets them. -/

set_option Elab.async false

namespace Sys2Proof.Tests

open Sys2Proof Sys2Proof.Machine

/-- A state as the test vectors write it, with nothing waiting. -/
def block (st : St) (rem : Byte) (idle idleMax : IdleCount) (buf : List Byte) : State :=
  { State.reset with st := st, rem := rem, idle := idle, idleMax := idleMax, buf := buf }

/-- What `RXBYTE` and `RXIDLE` answer: a state with nothing returned. -/
def goesTo (answer : Answer) (t : State) : Bool :=
  match answer with
  | .next u => decide (u = t)
  | .fault _ => false
  | .refused _ => false

/-- Whether an operation returns a value and leaves the state as it was. -/
def returns (answer : Answer) (s : State) (r : Result) : Bool := goesTo answer { s with result := r }

/-- Whether an operation is refused for this reason. -/
def refusedAs (answer : Answer) (r : Refusal) : Bool :=
  match answer with
  | .next _ => false
  | .fault _ => false
  | .refused q => decide (q = r)

/-- What the decoder reads from a presentation. -/
def reads (bs : List Byte) (i : Instr) (rest : List Byte) : Bool :=
  match decode bs with
  | .ok r => decide (r = (i, rest))
  | .error _ => false

/-- Whether the decoder refuses a presentation for this reason. -/
def unreadable (bs : List Byte) (e : DecodeError) : Bool :=
  match decode bs with
  | .ok _ => false
  | .error q => decide (q = e)

/-- The address of the vectors: serial number "123456789012". -/
def meter : Address := ⟨0x12, 0x34, 0x56, 0x78, 0x90, 0x12⟩

/-- The bare frame `g21` of 2.5. -/
def g21 : List Byte :=
  [0x68, 0x12, 0x90, 0x78, 0x56, 0x34, 0x12, 0x68, 0x11, 0x04, 0x33, 0x34, 0x35, 0x36, 0x6D, 0x16]

/-- The bare frame of V90. -/
def g20 : List Byte := [0x68, 0x12, 0x90, 0x78, 0x56, 0x34, 0x12, 0x68, 0x11, 0x00, 0x97, 0x16]

/-! ### Well-formedness: the one check, with a term it refuses and the nearest it accepts -/

theorem test_wf_refuses_a_payload_of_another_length : (Instr.enc meter 0x11 2 [0x01]).wf = false := by decide

theorem test_wf_accepts_a_payload_of_n_bytes : (Instr.enc meter 0x11 2 [0x01, 0x45]).wf = true := by decide

/-! ### Decode: words written out bit by bit from R56 (`st` in bits 7:4, `op` in bits 3:0), operands by log entry 3 -/

theorem test_decode_nop : reads [0b00000000] .nop [] = true := by decide

theorem test_decode_rev6 :
    reads [0b00000001, 0x12, 0x34, 0x56, 0x78, 0x90, 0x12] (.rev6 meter) [] = true := by decide

theorem test_decode_obf : reads [0b00000010, 0x45, 0xAA] (.obf 0x45) [0xAA] = true := by decide

theorem test_decode_deobf : reads [0b00000011, 0x78] (.deobf 0x78) [] = true := by decide

theorem test_decode_cksum :
    reads [0b00000100, 1, 0x68, 1, 0x01, 1, 0x02, 0] (.cksum [0x68, 0x01, 0x02]) [] = true := by decide

theorem test_decode_ckvfy : reads [0b00000101, 1, 0x68, 0, 0x6B] (.ckvfy [0x68] 0x6B) [] = true := by decide

theorem test_decode_enc :
    reads [0b00000110, 0x12, 0x34, 0x56, 0x78, 0x90, 0x12, 0x91, 0x02, 0x01, 0x45, 0xAA]
      (.enc meter 0x91 2 [0x01, 0x45]) [0xAA] = true := by decide

theorem test_decode_dec : reads [0b00000111, 1, 0xFE, 0] (.dec [0xFE]) [] = true := by decide

theorem test_decode_rxstart : reads [0b00001000, 0x03, 0x02] (.rxstart 0x0203) [] = true := by decide

theorem test_decode_rxbyte_await_start : reads [0b00011001, 0x68] (.rxbyteAwaitStart 0x68) [] = true := by decide

theorem test_decode_rxbyte_in_address : reads [0b00101001, 0x68] (.rxbyteInAddress 0x68) [] = true := by decide

theorem test_decode_rxbyte_await_second_sync :
    reads [0b00111001, 0x68] (.rxbyteAwaitSecondSync 0x68) [] = true := by decide

theorem test_decode_rxbyte_in_control : reads [0b01001001, 0x91] (.rxbyteInControl 0x91) [] = true := by decide

theorem test_decode_rxbyte_in_length : reads [0b01011001, 0x02] (.rxbyteInLength 0x02) [] = true := by decide

theorem test_decode_rxbyte_in_payload : reads [0b01101001, 0x34] (.rxbyteInPayload 0x34) [] = true := by decide

theorem test_decode_rxbyte_in_checksum : reads [0b01111001, 0xC5] (.rxbyteInChecksum 0xC5) [] = true := by decide

theorem test_decode_rxbyte_in_eof : reads [0b10001001, 0x16] (.rxbyteInEof 0x16) [] = true := by decide

theorem test_decode_rxidle : reads [0b00001010] .rxidle [] = true := by decide

theorem test_decode_reserved_b : reads [0b00001011] .reservedB [] = true := by decide

theorem test_decode_reserved_c : reads [0b00001100] .reservedC [] = true := by decide

theorem test_decode_reserved_d : reads [0b00001101] .reservedD [] = true := by decide

theorem test_decode_reserved_e : reads [0b00001110] .reservedE [] = true := by decide

theorem test_decode_reserved_f : reads [0b00001111] .reservedF [] = true := by decide

theorem test_decode_refuses_rxbyte_while_halted : unreadable [0b10011001, 0x68] (.rxbyteWhileHalted 9) = true := by
  decide

theorem test_decode_refuses_what_is_no_state : unreadable [0b10111001, 0x68] (.notAState 11) = true := by decide

theorem test_decode_refuses_a_missing_operand : unreadable [0b00000110, 0x12] .operandMissing = true := by decide

theorem test_decode_refuses_a_bad_strobe : unreadable [0b00000100, 2] (.badStrobe 2) = true := by decide

/-! ### The codec primitives, `NOP`, `ENC` and `DEC` (R72, V1, V8, V17, V32, V36, V37, V42, V20, V28, V55) -/

theorem test_nop_in_a_run : goesTo (exec .nop (block .inAddress 5 2 3 [0x68, 0x68]))
    (block .inAddress 5 2 3 [0x68, 0x68]) = true := by decide

theorem test_rev6_v1 : returns (exec (.rev6 meter) (block .off 0 0 1 [])) (block .off 0 0 1 [])
    (.address ⟨0x12, 0x90, 0x78, 0x56, 0x34, 0x12⟩) = true := by decide

theorem test_rev6_keeps_nibbles_v6 : returns (exec (.rev6 ⟨0x1F, 0, 0, 0, 0, 0xF1⟩) State.reset) State.reset
    (.address ⟨0xF1, 0, 0, 0, 0, 0x1F⟩) = true := by decide

theorem test_obf_adds_v8 : returns (exec (.obf 0x01) State.reset) State.reset (.byte 0x34) = true := by decide

theorem test_obf_wraps_v12 : returns (exec (.obf 0xFF) State.reset) State.reset (.byte 0x32) = true := by decide

theorem test_deobf_borrows_v17 : returns (exec (.deobf 0x32) State.reset) State.reset (.byte 0xFF) = true := by decide

theorem test_deobf_v18 : returns (exec (.deobf 0x00) State.reset) State.reset (.byte 0xCD) = true := by decide

theorem test_cksum_wraps_v32 : returns (exec (.cksum [0xFF, 0x01]) State.reset) State.reset (.byte 0x00) = true := by
  decide

theorem test_cksum_v31 : returns (exec (.cksum [0x68, 0x01, 0x02]) State.reset) State.reset (.byte 0x6B) = true := by
  decide

theorem test_ckvfy_matches_v36 :
    returns (exec (.ckvfy [0x68, 0x01, 0x02] 0x6B) State.reset) State.reset (.valid true) = true := by decide

theorem test_ckvfy_differs_v37 :
    returns (exec (.ckvfy [0x68, 0x01, 0x02] 0x6A) State.reset) State.reset (.valid false) = true := by decide

theorem test_enc_v42 : returns (exec (.enc meter 0x91 2 [0x01, 0x45]) State.reset) State.reset
    (.frame [0xFE, 0xFE, 0x68, 0x12, 0x90, 0x78, 0x56, 0x34, 0x12, 0x68, 0x91, 0x02, 0x34, 0x78, 0xC5, 0x16]) =
      true := by decide

theorem test_enc_wraps_v40 :
    returns (exec (.enc ⟨0xFF, 0xFF, 0xFF, 0xFF, 0xFF, 0xFF⟩ 0xFF 1 [0xFF]) State.reset) State.reset
      (.frame [0xFE, 0xFE, 0x68, 0xFF, 0xFF, 0xFF, 0xFF, 0xFF, 0xFF, 0x68, 0xFF, 0x01, 0x32, 0xFC, 0x16]) = true := by
  decide

theorem test_dec_v28 : returns (exec (.dec ([0xFE, 0xFE] ++ g21)) State.reset) State.reset
    (.decoded meter 0x11 [0x00, 0x01, 0x02, 0x03] true) = true := by decide

theorem test_dec_first_sync_flipped_v55 :
    returns (exec (.dec [0x69, 0, 0, 0, 0, 0, 0x98, 0x68, 0x11, 0x07, 0x34, 0x35, 0x36, 0x37, 0x38, 0x39, 0x3A, 0x01,
        0x16]) State.reset) State.reset
      (.decoded ⟨0x98, 0, 0, 0, 0, 0⟩ 0x11 [1, 2, 3, 4, 5, 6, 7] false) = true := by decide

/-! ### The reassembler, single steps (V60 to V85) -/

theorem test_rxstart_v60 :
    goesTo (exec (.rxstart 3) (block .off 0 0 1 [])) (block .awaitStart 0 0 3 []) = true := by decide

theorem test_rxstart_after_a_frame_r92 :
    goesTo (exec (.rxstart 5) (block .done 0 0 3 g20)) (block .awaitStart 0 0 5 []) = true := by decide

theorem test_await_start_discards_v64 :
    goesTo (exec (.rxbyteAwaitStart 0xFE) (block .awaitStart 0 2 3 [])) (block .awaitStart 0 0 3 []) = true := by decide

theorem test_await_start_takes_the_sync_v65 :
    goesTo (exec (.rxbyteAwaitStart 0x68) (block .awaitStart 0 0 3 [])) (block .inAddress 6 0 3 [0x68]) = true := by
  decide

theorem test_in_address_v66 : goesTo (exec (.rxbyteInAddress 0x68) (block .inAddress 6 0 3 [0x68]))
    (block .inAddress 5 0 3 [0x68, 0x68]) = true := by decide

theorem test_in_address_last_v67 : goesTo (exec (.rxbyteInAddress 0x12) (block .inAddress 1 0 3 (g20.take 6)))
    (block .awaitSecondSync 0 0 3 [0x68, 0x12, 0x90, 0x78, 0x56, 0x34, 0x12]) = true := by decide

theorem test_second_sync_not_checked_v68 :
    goesTo (exec (.rxbyteAwaitSecondSync 0x00) (block .awaitSecondSync 0 0 3 (g20.take 7)))
      (block .inControl 0 0 3 [0x68, 0x12, 0x90, 0x78, 0x56, 0x34, 0x12, 0x00]) = true := by decide

theorem test_in_control_v69 : goesTo (exec (.rxbyteInControl 0x91) (block .inControl 0 2 3 (g20.take 8)))
    (block .inLength 0 0 3 [0x68, 0x12, 0x90, 0x78, 0x56, 0x34, 0x12, 0x68, 0x91]) = true := by decide

theorem test_in_length_zero_v70 : goesTo (exec (.rxbyteInLength 0x00) (block .inLength 0 0 3 (g20.take 9)))
    (block .inChecksum 0 0 3 (g20.take 10)) = true := by decide

theorem test_in_length_largest_v72 : goesTo (exec (.rxbyteInLength 0xFF) (block .inLength 0 0 3 (g20.take 9)))
    (block .inPayload 255 0 3 (g20.take 9 ++ [0xFF])) = true := by decide

theorem test_in_payload_v73 : goesTo (exec (.rxbyteInPayload 0x34) (block .inPayload 2 1 3 (g20.take 9 ++ [0x02])))
    (block .inPayload 1 0 3 (g20.take 9 ++ [0x02, 0x34])) = true := by decide

theorem test_in_payload_last_v74 :
    goesTo (exec (.rxbyteInPayload 0x16) (block .inPayload 1 0 3 (g20.take 9 ++ [0x02, 0x34])))
      (block .inChecksum 0 0 3 (g20.take 9 ++ [0x02, 0x34, 0x16])) = true := by decide

theorem test_in_checksum_v75 : goesTo (exec (.rxbyteInChecksum 0xC5) (block .inChecksum 0 0 3 (g20.take 10)))
    (block .inEof 0 0 3 (g20.take 10 ++ [0xC5])) = true := by decide

theorem test_in_eof_not_checked_v77 : goesTo (exec (.rxbyteInEof 0x00) (block .inEof 0 0 3 (g20.take 11)))
    (block .done 0 0 3 (g20.take 11 ++ [0x00])) = true := by decide

theorem test_rxidle_counts_v81 : goesTo (exec .rxidle (block .inPayload 2 1 3 (g20.take 9 ++ [0x02, 0x34])))
    (block .inPayload 2 2 3 (g20.take 9 ++ [0x02, 0x34])) = true := by decide

theorem test_rxidle_times_out_v82 : goesTo (exec .rxidle (block .inPayload 2 2 3 (g20.take 9 ++ [0x02, 0x34])))
    (block .noFrame 0 0 3 []) = true := by decide

theorem test_reserved_is_refused : refusedAs (exec .reservedB State.reset) (.reservedSelector 0xB) = true := by decide

/-! ### Steps -/

theorem test_step_runs_the_placed_word :
    goesTo (step (State.reset.withFetchWord 8 0x02)) { State.reset with result := .byte 0x33 } = true := by decide

theorem test_step_runs_the_placed_poll :
    goesTo (step (State.reset.withFetchWord 16 0x6819)) (block .inAddress 6 0 1 [0x68]) = true := by decide

theorem test_step_applies_reset_v85 :
    goesTo (step { block .inControl 0 2 3 (g20.take 8) with turns := [.reset] }) State.reset = true := by decide

theorem test_status_after_reset :
    goesTo (step { State.reset with turns := [.status .rstat] }) { State.reset with result := .byte 0b10000000 } =
      true := by decide

/-! ### Witnesses: concrete states and operands that meet the hypotheses of each statement that has any -/

/-- A state in `IN_ADDRESS`, one byte short of the second sync, that meets the invariants. -/
def lastAddress : State := block .inAddress 1 2 3 (g20.take 6)

/-- A state in `IN_PAYLOAD` as in V82: two of three idle polls counted. -/
def nearTimeout : State := block .inPayload 1 2 3 (g20.take 9 ++ [0x02, 0x34])

/-- `n` bytes, all `CD`: the longest payload for `n = 255` (V44). -/
def payloadOf (n : Nat) : List Byte := List.replicate n 0xCD

theorem payloadOf_length (n : Nat) : (payloadOf n).length = n := List.length_replicate

/-- A finished frame with 255 payload bytes: `buf` is full. -/
def fullFrame : State := block .done 0 0 1 (g20.take 9 ++ [0xFF] ++ payloadOf 255 ++ [0x96, 0x16])

theorem frameInv_lastAddress : FrameInv lastAddress := by
  simp only [FrameInv, frameProgress, lastAddress, block]; decide

theorem frameInv_nearTimeout : FrameInv nearTimeout := by
  simp only [FrameInv, frameProgress, nearTimeout, block]; decide

theorem fullFrame_length : fullFrame.buf.length = 267 := by
  show (g20.take 9 ++ [0xFF] ++ payloadOf 255 ++ [0x96, 0x16]).length = 267
  rw [List.length_append, List.length_append, payloadOf_length]
  rfl

theorem frameInv_fullFrame : FrameInv fullFrame :=
  ⟨⟨fullFrame_length, rfl, rfl, rfl, Nat.le_trans (by decide) (Nat.le_of_eq fullFrame_length.symm),
    Nat.le_of_eq fullFrame_length⟩, by decide, by decide⟩

theorem witness_StepKeepsInvariant_byte :
    FrameInv { lastAddress with turns := [.poll], transport := [some 0x12] } ∧
      step { lastAddress with turns := [.poll], transport := [some 0x12] } =
        .next (block .awaitSecondSync 0 0 3 (g20.take 7)) := ⟨frameInv_lastAddress, rfl⟩

theorem witness_StepKeepsInvariant_timeout :
    FrameInv { nearTimeout with turns := [.poll] } ∧
      step { nearTimeout with turns := [.poll] } = .next (block .noFrame 0 0 3 []) := ⟨frameInv_nearTimeout, rfl⟩

theorem witness_ReachableStateMeetsInvariant :
    reaches 2 { State.reset with turns := [.host, .poll], hostOps := [0x08, 0x03, 0x00], transport := [some 0x68] }
      (block .inAddress 6 0 3 [0x68]) := rfl

theorem witness_BufferNeverOverflows : FrameInv fullFrame ∧ fullFrame.buf.length = 267 :=
  ⟨frameInv_fullFrame, fullFrame_length⟩

theorem witness_ResetAppliesInAnyState : { lastAddress with turns := [.reset] }.turns = .reset :: [] := rfl

theorem witness_FlagsFollowSt : 11 ≤ (11#4).toNat ∧ 11 ≤ (15#4).toNat := by decide

theorem witness_StatusViewReadsWithoutEffect :
    { lastAddress with turns := [.status .rlen] }.turns = .status .rlen :: [] ∧ fullFrame.buf.length ≤ 267 ∧
      { lastAddress with turns := [.status (.rbuf 5)] }.turns = .status (.rbuf 5) :: [] ∧
      5 < lastAddress.buf.length ∧ lastAddress.buf.length ≤ 6 :=
  ⟨rfl, Nat.le_of_eq fullFrame_length, rfl, by decide, by decide⟩

theorem witness_StatusViewReadsWithoutEffect_refusal :
    refusedAs (step { lastAddress with turns := [.status (.rbuf 6)] }) (.beyondBuffer 6) = true := by decide

theorem witness_StepRunsHostOperation :
    { lastAddress with turns := [.host], hostOps := [0x02, 0x45] }.turns = .host :: [] ∧
      selectorOf 0x02 ≠ 0x9 ∧ selectorOf 0x02 ≠ 0xA ∧
      decode (dispatchByte (stCode lastAddress.st) (selectorOf 0x02) :: [0x45]) = .ok (.obf 0x45, []) :=
  ⟨rfl, by decide, by decide, rfl⟩

theorem witness_StepRunsHostOperation_nothing_presented :
    { lastAddress with turns := [.host] }.turns = .host :: [] ∧ { lastAddress with turns := [.host] }.hostOps = [] :=
  ⟨rfl, rfl⟩

theorem witness_StepRunsPollOutcome :
    running { lastAddress with turns := [.poll], transport := [some 0x12] } = true ∧
      running { lastAddress with turns := [.poll], transport := [none] } = true ∧
      running { lastAddress with turns := [.poll], transport := [] } = true := by decide

theorem witness_HaltedBlockTakesNothing :
    running { block .done 0 0 3 g20 with turns := [.poll], transport := [some 0x68] } = false ∧
      running (block .off 0 0 1 []) = false ∧ running (block .noFrame 0 0 3 []) = false ∧
      rxbyteRow .awaitStart 0x68 = some (.rxbyteAwaitStart 0x68) := by decide

theorem witness_StepWithNoTurnIsNop : lastAddress.turns = [] := rfl

theorem witness_HostCannotIssuePollOutcome :
    { lastAddress with turns := [.host], hostOps := [0x09, 0x68] }.turns = .host :: [] ∧ selectorOf 0x09 = 0x9 ∧
      selectorOf 0x0A = 0xA := by decide

theorem witness_DecodeOfEncodeIsIdentity :
    (Instr.enc meter 0x11 0 []).wf = true ∧ (Instr.enc meter 0x11 255 (payloadOf 255)).wf = true :=
  ⟨rfl, by rw [Instr.wf, payloadOf_length]; rfl⟩

theorem witness_DecodedOperationIsWellFormed :
    decode [0x06, 0x12, 0x34, 0x56, 0x78, 0x90, 0x12, 0x91, 0x01, 0x45] = .ok (.enc meter 0x91 1 [0x45], []) := rfl

theorem witness_IssuedOperationIsPerformed :
    nothingWaiting lastAddress ∧ (Instr.rev6 meter).wf = true ∧ Instr.rev6 meter ≠ .rxidle ∧
      ∀ st b, rxbyteRow st b ≠ some (.rev6 meter) :=
  ⟨⟨rfl, rfl, rfl⟩, rfl, by decide, fun st b => by cases st <;> simp [rxbyteRow]⟩

theorem witness_Rev6IsAnInvolution : exec (.rev6 meter) State.reset =
    .next { State.reset with result := .address ⟨0x12, 0x90, 0x78, 0x56, 0x34, 0x12⟩ } := rfl

theorem witness_ChecksumLaws :
    0 < ([0x68, 0x01] : List Byte).length ∧ 1 < ([0x68, 0x01] : List Byte).length ∧ (0 : Nat) ≠ 1 ∧
      ([0x68, 0x01] : List Byte).Perm [0x01, 0x68] := ⟨by decide, by decide, by decide, .swap _ _ _⟩

theorem witness_EncBuildsTheFrame :
    ([] : List Byte).length = (0 : Byte).toNat ∧ (payloadOf 255).length = (255 : Byte).toNat :=
  ⟨rfl, payloadOf_length 255⟩

theorem witness_EncodedFrameIsWellFormed : exec (.enc meter 0x11 0 []) State.reset =
    .next { State.reset with result := .frame ([0xFE, 0xFE] ++ g20) } := rfl

theorem witness_EncRefusesAnotherLength :
    ([0x01] : List Byte).length ≠ (0 : Byte).toNat ∧ (payloadOf 256).length ≠ (255 : Byte).toNat ∧
      (payloadOf 255).length = 255 :=
  ⟨by decide, by rw [payloadOf_length]; decide, payloadOf_length 255⟩

theorem witness_DecFindsFieldsByPosition :
    g20.head? ≠ some 0xFE ∧ 12 ≤ g20.length ∧ g21.head? ≠ some 0xFE ∧ 12 ≤ g21.length := by decide

theorem witness_DecOfShortOperandIsInvalid :
    ([] : List Byte).head? ≠ some 0xFE ∧ ([] : List Byte).length < 12 ∧ (g21.take 11).head? ≠ some 0xFE ∧
      (g21.take 11).length < 12 := by decide

theorem witness_DecodeOfEncodedFrame : ([0x00, 0x01, 0x02, 0x03] : List Byte).length = (4 : Byte).toNat ∧
    exec (.enc meter 0x11 4 [0x00, 0x01, 0x02, 0x03]) State.reset =
      .next { State.reset with result := .frame ([0xFE, 0xFE] ++ g21) } := ⟨rfl, rfl⟩

theorem witness_DecodeOfEncodedFrame_converse : wellFormedBare g20 ∧ wellFormedBare g21 := by decide

theorem witness_DamageIsDetected : ([0x00, 0x01, 0x02, 0x03] : List Byte).length = (4 : Byte).toNat ∧
    exec (.enc meter 0x11 4 [0x00, 0x01, 0x02, 0x03]) State.reset =
      .next { State.reset with result := .frame ([0xFE, 0xFE] ++ g21) } ∧
    0 < 10 + (4 : Byte).toNat ∧ 13 < 10 + (4 : Byte).toNat ∧ (0x6C : Byte) ≠ byteAt g21 (10 + (4 : Byte).toNat) :=
  ⟨rfl, rfl, by decide, by decide, by decide⟩

theorem witness_CodecUnitIsApart :
    isCodecOp (.enc meter 0x11 0 []) = true ∧ (Instr.enc meter 0x11 0 []).wf = true ∧ isCodecOp (.dec []) = true ∧
      (Instr.dec []).wf = true := by decide

theorem witness_RxstartBeginsARun :
    (1 : IdleCount) ≠ 0 ∧ (0xFFFF : IdleCount) ≠ 0 ∧ running State.reset = false ∧
      running (block .done 0 0 3 g20) = false ∧ running (block .noFrame 0 0 3 []) = false := by decide

theorem witness_RxstartRefusals : running (block .awaitStart 0 0 3 []) = true ∧
    running (block .inEof 0 0 3 (g20.take 11)) = true := by decide

theorem witness_HuntTakesTheFirstSync : (block .awaitStart 0 2 3 []).st = .awaitStart := rfl

theorem witness_AddressByteIsCounted :
    lastAddress.st = .inAddress ∧ 1 ≤ lastAddress.rem.toNat ∧ (block .inAddress 6 0 3 [0x68]).st = .inAddress ∧
      1 ≤ (block .inAddress 6 0 3 [0x68]).rem.toNat := by decide

theorem witness_SingleByteStatesTakeAnyByte :
    (block .awaitSecondSync 0 0 3 (g20.take 7)).st = .awaitSecondSync ∧
      (block .inControl 0 0 3 (g20.take 8)).st = .inControl ∧
      (block .inChecksum 0 0 3 (g20.take 10)).st = .inChecksum := by decide

theorem witness_TerminatorByteCompletesTheFrame :
    (block .inEof 0 0 3 (g20.take 11)).st = .inEof ∧ FrameInv (block .inEof 0 0 3 (g20.take 11)) := by
  refine ⟨rfl, ?_⟩
  simp only [FrameInv, frameProgress, block]; decide

theorem witness_LengthByteBranches : (block .inLength 0 0 3 (g20.take 9)).st = .inLength := rfl

theorem witness_PayloadByteIsCounted :
    nearTimeout.st = .inPayload ∧ 1 ≤ nearTimeout.rem.toNat ∧
      (block .inPayload 255 0 3 (g20.take 9 ++ [0xFF])).st = .inPayload ∧
      1 ≤ (block .inPayload 255 0 3 (g20.take 9 ++ [0xFF])).rem.toNat := by decide

theorem witness_RxbyteStoresAtTheEndOnly :
    rxbyteRow lastAddress.st 0x12 = some (.rxbyteInAddress 0x12) ∧
      rxbyteRow (block .awaitStart 0 0 3 []).st 0xFE = some (.rxbyteAwaitStart 0xFE) ∧
      (5 : Nat) ≠ lastAddress.buf.length ∧
      (7 : Nat) ≠ lastAddress.buf.length := by decide

theorem witness_RxidleCountsOrTimesOut :
    (running nearTimeout = true ∧ nearTimeout.idle.toNat < nearTimeout.idleMax.toNat ∧
        nearTimeout.idle.toNat + 1 = nearTimeout.idleMax.toNat) ∧
      running (block .awaitStart 0 0 3 []) = true ∧
      (block .awaitStart 0 0 3 []).idle.toNat + 1 < (block .awaitStart 0 0 3 []).idleMax.toNat := by decide

theorem witness_OtherRowsOfRxbyteAreRefused :
    running lastAddress = true ∧ St.inEof ≠ lastAddress.st ∧ rxbyteRow .inEof 0x16 = some (.rxbyteInEof 0x16) := by
  decide

theorem witness_UndecodablePresentationIsRefused :
    { lastAddress with turns := [.host], hostOps := [0x02] }.turns = .host :: [] ∧ selectorOf 0x02 ≠ 0x9 ∧
      selectorOf 0x02 ≠ 0xA ∧
      decode (dispatchByte (stCode lastAddress.st) (selectorOf 0x02) :: []) = .error .operandMissing :=
  ⟨rfl, by decide, by decide, rfl⟩

theorem witness_OnlyContractViolationsAreRefused :
    refusedAs (exec (.rxstart 0) State.reset) .idleMaxZero = true ∧
      refusedAs (exec (.rxstart 3) lastAddress) .runInProgress = true ∧
      refusedAs (exec .reservedF State.reset) (.reservedSelector 0xF) = true ∧
      refusedAs (exec (.enc meter 0x11 2 [0x01]) State.reset) (.payloadLength 2 1) = true ∧
      refusedAs (exec (.rxbyteInEof 0x16) lastAddress) (.rowDoesNotApply .inEof .inAddress) = true := by decide

theorem witness_StMovesAlongTheChain :
    (step { lastAddress with turns := [.reset] } = .next State.reset ∧ State.reset.st ≠ lastAddress.st) ∧
      (step { State.reset with turns := [.host], hostOps := [0x08, 0x03, 0x00] } =
          .next (block .awaitStart 0 0 3 []) ∧
        (block .awaitStart 0 0 3 []).st ≠ State.reset.st) ∧
      (step { nearTimeout with turns := [.poll] } = .next (block .noFrame 0 0 3 []) ∧ .noFrame ≠ nearTimeout.st) ∧
      (step { block .inLength 0 0 3 (g20.take 9) with turns := [.poll], transport := [some 0x00] } =
          .next (block .inChecksum 0 0 3 (g20.take 10)) ∧ St.inChecksum ≠ .inLength) ∧
      (step { lastAddress with turns := [.poll], transport := [some 0x12] } =
          .next (block .awaitSecondSync 0 0 3 (g20.take 7)) ∧ .awaitSecondSync ≠ lastAddress.st) :=
  ⟨⟨rfl, by decide⟩, ⟨rfl, by decide⟩, ⟨rfl, by decide⟩, ⟨rfl, by decide⟩, rfl, by decide⟩

theorem witness_BufferGrowsAtItsEndOrIsEmptied :
    step { lastAddress with turns := [.poll], transport := [some 0x12] } =
        .next (block .awaitSecondSync 0 0 3 (g20.take 7)) ∧
      step { nearTimeout with turns := [.poll] } = .next (block .noFrame 0 0 3 []) := ⟨rfl, rfl⟩

theorem witness_OutcomeStandsUntilNextRun :
    step { block .done 0 0 3 g20 with turns := [.poll], transport := [some 0x68] } =
        .next { block .done 0 0 3 g20 with transport := [some 0x68] } ∧
      step { block .noFrame 0 0 3 [] with turns := [.host], hostOps := [0x08, 0x05, 0x00] } =
        .next (block .awaitStart 0 0 5 []) ∧
      step { block .done 0 0 3 g20 with turns := [.reset] } = .next State.reset := ⟨rfl, rfl, rfl⟩

theorem witness_RunEndsOnlyAsTheRulesSay :
    step { block .inEof 0 0 3 (g20.take 11) with turns := [.poll], transport := [some 0x16] } =
        .next (block .done 0 0 3 g20) ∧
      step { nearTimeout with turns := [.poll], transport := [none] } = .next (block .noFrame 0 0 3 []) :=
  ⟨rfl, rfl⟩

theorem witness_RunsStartAndEndCanonically :
    FrameInv { block .inEof 0 0 3 (g20.take 11) with turns := [.poll], transport := [some 0x16] } ∧
      step { block .inEof 0 0 3 (g20.take 11) with turns := [.poll], transport := [some 0x16] } =
        .next (block .done 0 0 3 g20) ∧
      step { nearTimeout with turns := [.poll] } = .next (block .noFrame 0 0 3 []) ∧
      (5 : IdleCount) ≠ 0 ∧ running State.reset = false ∧ running (block .done 0 0 3 g20) = false :=
  ⟨witness_TerminatorByteCompletesTheFrame.2, rfl, rfl, by decide, rfl, rfl⟩

theorem witness_ConsecutiveIdlePollsTimeOut :
    running (block .awaitStart 0 0 3 []) = true ∧ (block .awaitStart 0 0 3 []).idle.toNat < 3 ∧
      nothingWaiting (block .awaitStart 0 0 3 []) ∧
      (block .awaitStart 0 0 3 []).idle.toNat + 2 < (block .awaitStart 0 0 3 []).idleMax.toNat ∧
      (block .awaitStart 0 0 3 []).idleMax.toNat ≤ (block .awaitStart 0 0 3 []).idle.toNat + 3 :=
  ⟨rfl, by decide, ⟨rfl, rfl, rfl⟩, by decide, by decide⟩

theorem witness_NoiseKeepsHunting :
    (block .awaitStart 0 2 3 []).st = .awaitStart ∧ nothingWaiting (block .awaitStart 0 2 3 []) ∧
      ([0xFE, 0x67] : List Byte) ≠ [] ∧ ∀ b ∈ ([0xFE, 0x67] : List Byte), b ≠ 0x68 :=
  ⟨rfl, ⟨rfl, rfl, rfl⟩, by decide, by decide⟩

theorem witness_ChunkingDoesNotMatter_no_timeout :
    running (block .awaitStart 0 1 3 []) = true ∧ (block .awaitStart 0 1 3 []).idle.toNat < 3 ∧
      nothingWaiting (block .awaitStart 0 1 3 []) ∧ idleGapsBelow 3 1 [none, some 0x68, none, none] = true :=
  ⟨rfl, by decide, ⟨rfl, rfl, rfl⟩, by decide⟩

theorem witness_ChunkingDoesNotMatter_same_bytes :
    running (block .awaitStart 0 0 3 []) = true ∧ nothingWaiting (block .awaitStart 0 0 3 []) ∧
      answeredBytes [some 0x68, some 0x12] = answeredBytes [none, some 0x68, none, some 0x12] ∧
      reaches 2 (pollWith (block .awaitStart 0 0 3 []) [some 0x68, some 0x12])
        (block .inAddress 5 0 3 [0x68, 0x12]) ∧
      reaches 4 (pollWith (block .awaitStart 0 0 3 []) [none, some 0x68, none, some 0x12])
        (block .inAddress 5 0 3 [0x68, 0x12]) ∧
      (block .inAddress 5 0 3 [0x68, 0x12]).st ≠ .noFrame :=
  ⟨rfl, ⟨rfl, rfl, rfl⟩, rfl, rfl, rfl, by decide⟩

theorem witness_FinishedRunConsumesExactly :
    (block .awaitStart 0 0 1 []).st = .awaitStart ∧ (block .awaitStart 0 0 1 []).buf = [] ∧
      nothingWaiting (block .awaitStart 0 0 1 []) ∧
      reaches 14 (feed (block .awaitStart 0 0 1 []) ([0xFE] ++ g20 ++ [0x68]))
        { block .done 0 0 1 g20 with transport := [some 0x68] } := ⟨rfl, rfl, ⟨rfl, rfl, rfl⟩, rfl⟩

theorem witness_EncodedFrameIsReassembledAndDecoded :
    running State.reset = false ∧ nothingWaiting State.reset ∧ (2 : IdleCount) ≠ 0 ∧
      ([] : List Byte).length = (0 : Byte).toNat ∧
      exec (.enc meter 0x11 0 []) State.reset = .next { State.reset with result := .frame ([0xFE, 0xFE] ++ g20) } ∧
      (∀ b ∈ ([0x67] : List Byte), b ≠ 0x68) ∧
      answeredBytes ([none, some 0x67, none] ++ ([0xFE, 0xFE] ++ g20).map some) = [0x67] ++ ([0xFE, 0xFE] ++ g20) ∧
      idleGapsBelow (2 : IdleCount).toNat 0 ([none, some 0x67, none] ++ ([0xFE, 0xFE] ++ g20).map some) = true :=
  ⟨rfl, ⟨rfl, rfl, rfl⟩, by decide, rfl, rfl, by decide, rfl, by decide⟩

end Sys2Proof.Tests
end

section
/-! PROOFS. What `sameBlock` carries over, how a row of `RXBYTE` moves `st` and `buf`, and what a turn of the status view
answers. -/

namespace Sys2Proof.Machine

/-! ### Blocks that are the same -/

theorem sameBlock.st_eq {s t : State} (h : sameBlock s t) : t.st = s.st :=
  have ⟨hst, _⟩ := h
  hst

theorem sameBlock.buf_eq {s t : State} (h : sameBlock s t) : t.buf = s.buf :=
  have ⟨_, _, hbuf, _⟩ := h
  hbuf

/-- R109: the table of the invariants speaks of the block alone. -/
theorem frameInv_congr {s t : State} (h : sameBlock s t) : FrameInv t ↔ FrameInv s := by
  obtain ⟨hst, hrem, hbuf, hidle, hmax⟩ := h
  simp only [FrameInv, frameProgress, hst, hrem, hbuf, hidle, hmax]

/-! ### The rows of `RXBYTE` -/

/-- R16: `st` stays, moves one place along the chain, or skips `IN_PAYLOAD` (R101). -/
def advancesTo (st st' : St) : Prop :=
  st' = st ∨ (∃ k, chainIndex st = some k ∧ chainIndex st' = some (k + 1)) ∨ (st = .inLength ∧ st' = .inChecksum)

/-- R98, R102: a byte of a counted field is appended, and `st` stays or is `next`. -/
theorem countDown_cases {s : State} {st next : St} (b : Byte) (hst : s.st = st) (hnext : advancesTo st next) :
    ∃ rem st', countDown s b next = accumulate s b rem st' ∧ advancesTo st st' := by
  by_cases h : s.rem - 1 = 0
  · exact ⟨_, _, countDown_last b next h, hnext⟩
  · exact ⟨_, _, countDown_more b next h, .inl hst⟩

/-- R96 to R104: everything a row can do to the block: discard the byte, or append it and let `st` advance. -/
theorem rowEffect_cases (b : Byte) (s : State) :
    rowEffect s.st b s = s ∨ ∃ rem st, rowEffect s.st b s = accumulate s b rem st ∧ advancesTo s.st st := by
  cases hst : s.st with
  | off => exact .inl rfl
  | awaitStart =>
    by_cases hb : b = Config.sync
    · exact .inr ⟨_, _, if_pos hb, .inr (.inl ⟨0, rfl, rfl⟩)⟩
    · exact .inl (if_neg hb)
  | inAddress => exact .inr (countDown_cases b hst (.inr (.inl ⟨1, rfl, rfl⟩)))
  | awaitSecondSync => exact .inr ⟨_, _, rfl, .inr (.inl ⟨2, rfl, rfl⟩)⟩
  | inControl => exact .inr ⟨_, _, rfl, .inr (.inl ⟨3, rfl, rfl⟩)⟩
  | inLength =>
    by_cases hb : b = 0
    · exact .inr ⟨_, _, if_pos hb, .inr (.inr ⟨rfl, rfl⟩)⟩
    · exact .inr ⟨_, _, if_neg hb, .inr (.inl ⟨4, rfl, rfl⟩)⟩
  | inPayload => exact .inr (countDown_cases b hst (.inr (.inl ⟨5, rfl, rfl⟩)))
  | inChecksum => exact .inr ⟨_, _, rfl, .inr (.inl ⟨6, rfl, rfl⟩)⟩
  | inEof => exact .inr ⟨_, _, rfl, .inr (.inl ⟨7, rfl, rfl⟩)⟩
  | done => exact .inl rfl
  | noFrame => exact .inl rfl

/-- R94, R96: `RXBYTE b` in its own state, with `idle` cleared first. -/
theorem byteEffect_cases (b : Byte) (s : State) :
    rowEffect s.st b (clearIdle s) = clearIdle s ∨
      ∃ rem st, rowEffect s.st b (clearIdle s) = accumulate (clearIdle s) b rem st ∧ advancesTo s.st st :=
  rowEffect_cases b (clearIdle s)

/-- R105, R107: no byte brings the block to `NO_FRAME`. -/
theorem eq_noFrame_of_advancesTo {st : St} (h : advancesTo st .noFrame) : st = .noFrame := by
  obtain h | ⟨k, -, hk⟩ | ⟨-, h⟩ := h
  · exact h.symm
  · cases hk
  · cases h

/-! ### The status view -/

/-- R25: a read that has a value takes its turn and returns the value. -/
theorem step_status_ok {s : State} {r : StatusReg} {ts : List Turn} {v : Result} (hs : s.turns = .status r :: ts)
    (hv : readStatus r s = .ok v) : step s = .next { s with turns := ts, result := v } := by
  simp only [step, fetch, hs, hv]; rfl

/-- R25: a read that has no value is refused. -/
theorem step_status_error {s : State} {r : StatusReg} {ts : List Turn} {e : Refusal} (hs : s.turns = .status r :: ts)
    (hv : readStatus r s = .error e) : step s = .refused e := by
  simp only [step, fetch, hs, hv]

/-- R25 `RSTAT`: its fields, which `st` alone decides (R21). -/
theorem rstat_fields (s : State) :
    (rstat s).extractLsb' 0 4 = stCode s.st ∧ (rstat s).getLsbD 4 = running s ∧ (rstat s).getLsbD 5 = doneFlag s ∧
      (rstat s).getLsbD 6 = noframeFlag s ∧ (rstat s).getLsbD 7 = offFlag s := by
  simp only [rstat, running, doneFlag, noframeFlag, offFlag]
  generalize s.st = st
  cases st <;> decide

/-- R25 `RLEN`: nine bits hold every length up to the capacity. -/
theorem rlen_toNat {s : State} (h : s.buf.length ≤ 267) : (rlen s).toNat = s.buf.length := by
  rw [rlen, BitVec.toNat_ofNat, Nat.mod_eq_of_lt (by omega)]

/-- R25, R32 `RBUF[i]` below `len(buf)`. -/
theorem readStatus_rbuf_of_lt {s : State} {i : Nat} (h : i < s.buf.length) :
    readStatus (.rbuf i) s = .ok (.byte s.buf[i]) := by
  simp [readStatus, readBuf, h]

/-- R25, R32 `RBUF[i]` from `len(buf)` on. -/
theorem readStatus_rbuf_of_ge {s : State} {i : Nat} (h : s.buf.length ≤ i) :
    readStatus (.rbuf i) s = .error (.beyondBuffer i) := by
  simp [readStatus, readBuf, h]

/-! ### The numbering of `st` -/

/-- R15, R62: 11 to 15 name no state. -/
theorem stOfCode_eq_none {c : BitVec 4} (h : 11 ≤ c.toNat) : stOfCode c = none := by
  unfold stOfCode
  split
  case h_12 => rfl
  all_goals omega

/-- R17: running is having a number from 1 to 8. -/
theorem stRunning_iff (st : St) : stRunning st = true ↔ 1 ≤ (stCode st).toNat ∧ (stCode st).toNat ≤ 8 := by
  cases st <;> decide

end Sys2Proof.Machine
end

section
/-! PROOFS. The invariants of R109: they hold after reset and every step keeps them, so they hold of every reachable
state; and what they say of the length of `buf`. -/

namespace Sys2Proof.Machine

/-! ### Bytes of a buffer that has grown -/

theorem byteAt_append_of_lt {s : List Byte} {i : Nat} (b : Byte) (h : i < s.length) :
    byteAt (s ++ [b]) i = byteAt s i := by
  simp [byteAt, List.getElem?_append_left h]

theorem byteAt_append_of_eq {s : List Byte} {i : Nat} (b : Byte) (h : s.length = i) : byteAt (s ++ [b]) i = b := by
  simp [byteAt, ← h]

/-! ### Every row keeps the table of R109 -/

/-- A counted field's `rem` after one byte, as a number (R98, R102). -/
theorem rem_sub_one_toNat {r : Byte} (h : 1 ≤ r.toNat) : (r - 1).toNat = r.toNat - 1 := by
  rw [BitVec.toNat_sub_of_le (by simpa [BitVec.le_def] using h)]; rfl

theorem rem_sub_one_eq_zero_iff {r : Byte} : r - 1 = 0 ↔ r.toNat = 1 := by
  rw [sub_eq_zero, ← BitVec.toNat_inj]; rfl

/-- R97. -/
theorem frameProgress_awaitStart_row {s : State} (b : Byte) (hst : s.st = .awaitStart) (h : frameProgress s) :
    frameProgress (rowEffect .awaitStart b s) := by
  by_cases hb : b = Config.sync
  · simp only [frameProgress, hst] at h
    obtain ⟨hlen, -⟩ := h
    simp [rowEffect, hb, frameProgress, hlen, byteAt_append_of_eq, Config.addrLen]
  · rwa [rowEffect, if_neg hb]

/-- R98. -/
theorem frameProgress_inAddress_row {s : State} (b : Byte) (hst : s.st = .inAddress) (h : frameProgress s) :
    frameProgress (rowEffect .inAddress b s) := by
  simp only [frameProgress, hst] at h
  obtain ⟨hlow, hhigh, hrem, hsync⟩ := h
  have hsync' : byteAt (s.buf ++ [b]) 0 = Config.sync := by rw [byteAt_append_of_lt b hlow, hsync]
  by_cases hlast : s.rem - 1 = 0
  · have := rem_sub_one_eq_zero_iff.mp hlast
    rw [rowEffect, countDown_last b _ hlast]
    exact ⟨by simp; omega, rfl, hsync'⟩
  · have := mt rem_sub_one_eq_zero_iff.mpr hlast
    have hsub := rem_sub_one_toNat (r := s.rem) (by omega)
    rw [rowEffect, countDown_more b _ hlast]
    simp only [frameProgress, accumulate_st, hst, accumulate_buf, accumulate_rem, List.length_append,
      List.length_singleton]
    exact ⟨by omega, by omega, by omega, hsync'⟩

/-- R101. -/
theorem frameProgress_inLength_row {s : State} (b : Byte) (hst : s.st = .inLength) (h : frameProgress s) :
    frameProgress (rowEffect .inLength b s) := by
  simp only [frameProgress, hst] at h
  obtain ⟨hlen, hrem, hsync⟩ := h
  have hsync' : byteAt (s.buf ++ [b]) 0 = Config.sync := by rw [byteAt_append_of_lt b (by omega), hsync]
  have hn : byteAt (s.buf ++ [b]) 9 = b := byteAt_append_of_eq b hlen
  by_cases hb : b = 0
  · rw [rowEffect, if_pos hb]
    refine ⟨?_, hrem, hsync'⟩
    rw [accumulate_buf, hn, hb]; simp [hlen]
  · have hpos : b.toNat ≠ 0 := fun e => hb (BitVec.eq_of_toNat_eq e)
    rw [rowEffect, if_neg hb]
    simp only [frameProgress, accumulate_st, accumulate_buf, accumulate_rem, List.length_append, List.length_singleton,
      hn]
    exact ⟨by omega, by omega, by omega, by omega, hsync'⟩

/-- R102. -/
theorem frameProgress_inPayload_row {s : State} (b : Byte) (hst : s.st = .inPayload) (h : frameProgress s) :
    frameProgress (rowEffect .inPayload b s) := by
  simp only [frameProgress, hst] at h
  obtain ⟨hlow, hhigh, hrem, hn, hsync⟩ := h
  have hsync' : byteAt (s.buf ++ [b]) 0 = Config.sync := by rw [byteAt_append_of_lt b (by omega), hsync]
  have hn' : byteAt (s.buf ++ [b]) 9 = byteAt s.buf 9 := byteAt_append_of_lt b (by omega)
  by_cases hlast : s.rem - 1 = 0
  · have := rem_sub_one_eq_zero_iff.mp hlast
    rw [rowEffect, countDown_last b _ hlast]
    refine ⟨?_, rfl, hsync'⟩
    rw [accumulate_buf, hn', List.length_append, List.length_singleton]
    omega
  · have := mt rem_sub_one_eq_zero_iff.mpr hlast
    have hsub := rem_sub_one_toNat (r := s.rem) (by omega)
    rw [rowEffect, countDown_more b _ hlast]
    simp only [frameProgress, accumulate_st, hst, accumulate_buf, accumulate_rem, List.length_append,
      List.length_singleton, hn']
    exact ⟨by omega, by omega, by omega, hn, hsync'⟩

/-- R97 to R104: the row of the current state keeps the table of R109 where `idle` is 0, as R94 makes it first. -/
theorem frameProgress_rowEffect {s : State} (b : Byte) (hidle : s.idle = 0) (h : frameProgress s) :
    frameProgress (rowEffect s.st b s) := by
  cases hst : s.st with
  | off => exact h
  | awaitStart => exact frameProgress_awaitStart_row b hst h
  | inAddress => exact frameProgress_inAddress_row b hst h
  | awaitSecondSync =>
    simp only [frameProgress, hst] at h
    obtain ⟨hlen, hrem, hsync⟩ := h
    exact ⟨by simp [rowEffect, hlen], hrem, (byteAt_append_of_lt b (by omega)).trans hsync⟩
  | inControl =>
    simp only [frameProgress, hst] at h
    obtain ⟨hlen, hrem, hsync⟩ := h
    exact ⟨by simp [rowEffect, hlen], hrem, (byteAt_append_of_lt b (by omega)).trans hsync⟩
  | inLength => exact frameProgress_inLength_row b hst h
  | inPayload => exact frameProgress_inPayload_row b hst h
  | inChecksum =>
    simp only [frameProgress, hst] at h
    obtain ⟨hlen, hrem, hsync⟩ := h
    refine ⟨?_, hrem, (byteAt_append_of_lt b (by omega)).trans hsync⟩
    simp [rowEffect, byteAt_append_of_lt b (show 9 < s.buf.length by omega), hlen]; omega
  | inEof =>
    simp only [frameProgress, hst] at h
    obtain ⟨hlen, hrem, hsync⟩ := h
    have hn : byteAt (s.buf ++ [b]) 9 = byteAt s.buf 9 := byteAt_append_of_lt b (by omega)
    have hgrown : (s.buf ++ [b]).length = 12 + (byteAt s.buf 9).toNat := by simp [hlen]; omega
    have hbound := (byteAt s.buf 9).isLt
    exact ⟨by rw [rowEffect, accumulate_buf, hn, hgrown], hrem, hidle,
      (byteAt_append_of_lt b (by omega)).trans hsync, by rw [rowEffect, accumulate_buf]; omega,
      by rw [rowEffect, accumulate_buf, Config.bufCap]; omega⟩
  | done => exact h
  | noFrame => exact h

/-! ### Every step keeps the invariants -/

/-- R109: while running, the table of the invariants says nothing of `idle`. -/
theorem frameProgress_idle {s : State} (c : IdleCount) (hr : running s = true) (h : frameProgress s) :
    frameProgress { s with idle := c } := by
  cases hst : s.st with
  | off | done | noFrame => simp [running, stRunning, hst] at hr
  | _ => simpa only [frameProgress, hst] using h

/-- R94: clearing `idle` while running keeps the invariants. -/
theorem frameInv_clearIdle {s : State} (hr : running s = true) (h : FrameInv s) : FrameInv (clearIdle s) := by
  obtain ⟨hp, -, hmax⟩ := h
  exact ⟨frameProgress_idle 0 hr hp, hmax, hmax⟩

/-- R106, R73: an idle poll that does not reach `idle_max` leaves the count below it. -/
theorem frameInv_countIdle {s : State} (hr : running s = true) (hi : s.idle.toNat + 1 ≠ s.idleMax.toNat)
    (h : FrameInv s) : FrameInv (countIdle s) := by
  obtain ⟨hp, hlt, hmax⟩ := h
  have hbound := s.idleMax.isLt
  have hcount : (s.idle + 1).toNat = s.idle.toNat + 1 := by
    rw [BitVec.toNat_add]; exact Nat.mod_eq_of_lt (by simpa using Nat.lt_of_le_of_lt hlt hbound)
  refine ⟨frameProgress_idle _ hr hp, ?_, hmax⟩
  rw [countIdle_idle, countIdle_idleMax, hcount]
  omega

/-- R109, R94 to R104: a byte in the row of the current state keeps the invariants. -/
theorem frameInv_byteEffect {s : State} (b : Byte) (hr : running s = true) (h : FrameInv s) :
    FrameInv (rowEffect s.st b (clearIdle s)) := by
  obtain ⟨hp, hlt, hmax⟩ := frameInv_clearIdle hr h
  refine ⟨frameProgress_rowEffect b rfl hp, ?_⟩
  obtain he | ⟨rem, st, he, -⟩ := byteEffect_cases b s
  · rw [he]; exact ⟨hlt, hmax⟩
  · rw [he]; exact ⟨hlt, hmax⟩

/-- R92: a run begun with `m` other than 0 begins in the invariants. -/
theorem frameInv_beginRun (s : State) {m : IdleCount} (hm : m ≠ 0) : FrameInv (beginRun s m) := by
  have hpos : 0 < m.toNat := Nat.pos_of_ne_zero fun e => hm (BitVec.eq_of_toNat_eq e)
  exact ⟨⟨rfl, rfl⟩, hpos, hpos⟩

/-- R106: a time-out ends in the invariants. -/
theorem frameInv_timeOut {s : State} (h : FrameInv s) : FrameInv (timeOut s) := by
  obtain ⟨-, -, hmax⟩ := h
  exact ⟨⟨rfl, rfl, rfl⟩, hmax, hmax⟩

/-- R27, R135: `RESET` gives the invariants in any state. -/
theorem frameInv_applyReset (s : State) : FrameInv (applyReset s) :=
  ⟨⟨rfl, rfl, rfl⟩, Nat.one_pos, le_refl 1⟩

/-- R109: the state after reset meets the invariants. -/
theorem frameInv_reset : FrameInv State.reset := frameInv_applyReset State.reset

/-- R109: every step keeps the invariants. -/
theorem step_keeps_frameInv {s t : State} (h : FrameInv s) (hstep : step s = .next t) : FrameInv t := by
  cases step_cases hstep with
  | same hb => exact (frameInv_congr hb).mpr h
  | reset _ hb => exact (frameInv_congr hb).mpr (frameInv_applyReset s)
  | started m _ hm _ hb => exact (frameInv_congr hb).mpr (frameInv_beginRun s hm)
  | byte b _ hr _ hb => exact (frameInv_congr hb).mpr (frameInv_byteEffect b hr h)
  | idle _ hr _ hi hb => exact (frameInv_congr hb).mpr (frameInv_countIdle hr hi h)
  | timeOut _ _ _ _ hb => exact (frameInv_congr hb).mpr (frameInv_timeOut h)

/-- What every step keeps, every run keeps. -/
theorem reaches_keeps {P : State → Prop} (hP : ∀ {s t}, P s → step s = .next t → P t) {k : Nat} {s t : State}
    (hs : P s) (h : reaches k s t) : P t := by
  induction k generalizing s with
  | zero => exact reaches_zero.mp h ▸ hs
  | succ k ih =>
    obtain ⟨u, hstep, hrest⟩ := reaches_succ.mp h
    exact ih (hP hs hstep) hrest

/-- R109: every state reachable from reset meets the invariants, whatever its surroundings bring. -/
theorem frameInv_of_reaches_reset {turns : List Turn} {ops : List Byte} {answers : List (Option Byte)} {k : Nat}
    {t : State} (h : reaches k { State.reset with turns := turns, hostOps := ops, transport := answers } t) :
    FrameInv t :=
  have hreset : FrameInv { State.reset with turns := turns, hostOps := ops, transport := answers } :=
    (frameInv_congr (s := State.reset) ⟨rfl, rfl, rfl, rfl, rfl⟩).mpr frameInv_reset
  reaches_keeps step_keeps_frameInv hreset h

/-! ### What the invariants say -/

/-- R19: `buf` is below its capacity everywhere but in `DONE`. -/
theorem buf_length_lt_of_ne_done {s : State} (h : FrameInv s) (hst : s.st ≠ .done) : s.buf.length < Config.bufCap := by
  obtain ⟨hp, -, -⟩ := h
  have hbound := (byteAt s.buf 9).isLt
  show s.buf.length < 267
  cases hcase : s.st with
  | done => exact absurd hcase hst
  | _ => simp only [frameProgress, hcase] at hp; omega

/-- R109: `rem` and `idle` of a finished frame are 0, and `buf` is within its capacity. -/
theorem frameInv_done {s : State} (h : FrameInv s) (hst : s.st = .done) :
    s.rem = 0 ∧ s.idle = 0 ∧ s.buf.length ≤ Config.bufCap := by
  obtain ⟨hp, -, -⟩ := h
  simp only [frameProgress, hst] at hp
  obtain ⟨-, hrem, hidle, -, -, hcap⟩ := hp
  exact ⟨hrem, hidle, hcap⟩

/-- R19: the invariants bound `buf` by its capacity. -/
theorem buf_length_le_bufCap {s : State} (h : FrameInv s) : s.buf.length ≤ Config.bufCap := by
  by_cases hst : s.st = .done
  · obtain ⟨-, -, hcap⟩ := frameInv_done h hst
    exact hcap
  · exact (buf_length_lt_of_ne_done h hst).le

end Sys2Proof.Machine
end

section
/-! PROOFS. The statements of spec/10_state.md. -/

namespace Sys2Proof.Machine

/-- Settles O5: R19's bound is what the invariants say of `buf`, and they hold of every reachable state. -/
theorem bufferNeverOverflows : Obligations.BufferNeverOverflows := by
  refine ⟨fun turns ops answers k t h => buf_length_le_bufCap (frameInv_of_reaches_reset h), fun t hinv hfull => ?_⟩
  have hdone : t.st = .done := by
    by_contra hst
    have hlt := buf_length_lt_of_ne_done hinv hst
    exact absurd hfull hlt.ne
  exact ⟨hdone, fun b => by rw [hdone]; rfl⟩

/-- Settles O49, by what a step can do to the block. -/
theorem stMovesAlongTheChain : Obligations.StMovesAlongTheChain := by
  intro s t hstep hne
  cases step_cases hstep with
  | same hb => exact absurd hb.st_eq hne
  | reset hs hb => exact .inl ⟨hs, hb.st_eq⟩
  | started m hs _ hr hb => exact .inr (.inl ⟨hr, hs, hb.st_eq⟩)
  | byte b hs hr _ hb =>
    have hst := hb.st_eq
    obtain he | ⟨rem, st, he, hadv⟩ := byteEffect_cases b s
    · rw [he] at hst
      exact absurd hst hne
    · rw [he, accumulate_st] at hst
      rw [← hst] at hadv
      exact .inr (.inr ⟨hr, hs, .inr (hadv.resolve_left hne)⟩)
  | idle _ _ _ _ hb => exact absurd hb.st_eq hne
  | timeOut hs hr _ _ hb => exact .inr (.inr ⟨hr, hs, .inl hb.st_eq⟩)

/-- Settles O50, by what a step can do to the block. -/
theorem bufferGrowsAtItsEndOrIsEmptied : Obligations.BufferGrowsAtItsEndOrIsEmptied := by
  intro s t hstep
  cases step_cases hstep with
  | same hb => exact .inl hb.buf_eq
  | reset _ hb => exact .inr (.inl hb.buf_eq)
  | started m _ _ _ hb => exact .inr (.inl hb.buf_eq)
  | byte b hs hr _ hb =>
    have hbuf := hb.buf_eq
    obtain he | ⟨rem, st, he, -⟩ := byteEffect_cases b s
    · exact .inl (by rw [hbuf, he, clearIdle_buf])
    · exact .inr (.inr ⟨hr, hs, b, by rw [hbuf, he, accumulate_buf, clearIdle_buf]⟩)
  | idle _ _ _ _ hb => exact .inl hb.buf_eq
  | timeOut _ _ _ _ hb => exact .inr (.inl hb.buf_eq)

/-- R105: a step that enters `DONE` appends one byte and leaves `idle_max`. -/
theorem step_enters_done {s t : State} (hstep : step s = .next t) (hdone : t.st = .done) (hne : s.st ≠ .done) :
    t.idleMax = s.idleMax ∧ ∃ b, t.buf = s.buf ++ [b] := by
  cases step_cases hstep with
  | same hb => exact absurd (hb.st_eq.symm.trans hdone) hne
  | reset _ hb => cases hb.st_eq.symm.trans hdone
  | started m _ _ _ hb => cases hb.st_eq.symm.trans hdone
  | byte b _ _ _ hb =>
    obtain ⟨hst, -, hbuf, -, hmax⟩ := hb
    obtain he | ⟨rem, st, he, -⟩ := byteEffect_cases b s
    · rw [he] at hst
      exact absurd (hst.symm.trans hdone) hne
    · rw [he] at hbuf hmax
      exact ⟨hmax, b, hbuf⟩
  | idle _ _ _ _ hb => exact absurd (hb.st_eq.symm.trans hdone) hne
  | timeOut _ _ _ _ hb => cases hb.st_eq.symm.trans hdone

/-- R107: a step that enters `NO_FRAME` is the time-out. -/
theorem step_enters_noFrame {s t : State} (hstep : step s = .next t) (hend : t.st = .noFrame) (hne : s.st ≠ .noFrame) :
    sameBlock (timeOut s) t := by
  cases step_cases hstep with
  | same hb => exact absurd (hb.st_eq.symm.trans hend) hne
  | reset _ hb => cases hb.st_eq.symm.trans hend
  | started m _ _ _ hb => cases hb.st_eq.symm.trans hend
  | byte b _ _ _ hb =>
    have hst := hb.st_eq
    obtain he | ⟨rem, st, he, hadv⟩ := byteEffect_cases b s
    · rw [he] at hst
      exact absurd (hst.symm.trans hend) hne
    · rw [he, accumulate_st, hend] at hst
      exact absurd (eq_noFrame_of_advancesTo (hst ▸ hadv)) hne
  | idle _ _ _ _ hb => exact absurd (hb.st_eq.symm.trans hend) hne
  | timeOut _ _ _ _ hb => exact hb

/-- R92: `RXSTART m` of a halted block, `m` other than 0. -/
theorem exec_rxstart_of_halted {m : IdleCount} {s : State} (hm : m ≠ 0) (hr : running s = false) :
    exec (.rxstart m) s = .next (returning (beginRun s m) .none) := by
  obtain ⟨h0, -⟩ | ⟨-, hrun, -⟩ | ⟨-, -, he⟩ := execRxstart_cases m s
  · exact absurd h0 hm
  · exact absurd (hr.symm.trans hrun) (by decide)
  · exact he

/-- Settles O53: `DONE` has its `rem` and `idle` from the invariants, `NO_FRAME` from the time-out, and the begin of a
run writes all five elements. -/
theorem runsStartAndEndCanonically : Obligations.RunsStartAndEndCanonically := by
  refine ⟨fun s t hinv hstep hdone hne => ?_, fun s t hstep hend hne => ?_, fun m s s' hm hr hr' => ?_⟩
  · obtain ⟨hrem, hidle, -⟩ := frameInv_done (step_keeps_frameInv hinv hstep) hdone
    obtain ⟨hmax, hbuf⟩ := step_enters_done hstep hdone hne
    exact ⟨hrem, hidle, hmax, hbuf⟩
  · obtain ⟨-, hrem, hbuf, hidle, hmax⟩ := step_enters_noFrame hstep hend hne
    exact ⟨hbuf, hrem, hidle, hmax⟩
  · exact ⟨_, _, exec_rxstart_of_halted hm hr, exec_rxstart_of_halted hm hr', ⟨rfl, rfl, rfl, rfl, rfl⟩,
      rfl, rfl, rfl, rfl, rfl⟩

/-- Settles O1: the values stand in the reset state, and the flags follow from `st = OFF`. -/
theorem resetGivesEveryElementItsValue : Obligations.ResetGivesEveryElementItsValue :=
  ⟨reset_st, reset_rem, reset_buf, reset_idle, reset_idleMax, rfl, rfl, rfl, rfl⟩

/-- Settles O7. -/
theorem flagsFollowSt : Obligations.FlagsFollowSt :=
  ⟨stOfCode_stCode, fun _ => stOfCode_eq_none, by decide,
    fun s => ⟨stRunning_iff s.st, beq_iff_eq, beq_iff_eq, beq_iff_eq⟩⟩

/-- Settles O8, register by register. -/
theorem statusViewReadsWithoutEffect : Obligations.StatusViewReadsWithoutEffect := fun s _ =>
  ⟨fun hs => ⟨rstat s, step_status_ok hs rfl, rstat_fields s⟩,
    fun hs => step_status_ok hs rfl,
    fun hs hlen => ⟨rlen s, step_status_ok hs rfl, rlen_toNat hlen⟩,
    fun hs => step_status_ok hs rfl,
    fun hs => step_status_ok hs rfl,
    fun _ hs => ⟨fun hi => step_status_ok hs (readStatus_rbuf_of_lt hi),
      fun hi => step_status_error hs (readStatus_rbuf_of_ge hi)⟩⟩

end Sys2Proof.Machine
end

section
/-! PROOFS. The statements of spec/20_memory.md: what the host's and the transport's turns run, where `RXBYTE` stores,
and that the codec unit has no access to the block. -/

namespace Sys2Proof.Machine

/-! ### The host's turn -/

/-- R55: the selectors that only a poll's outcome issues are 9 and A. -/
theorem isPollSelector_iff (op : BitVec 4) : isPollSelector op = true ↔ op = 0x9 ∨ op = 0xA := by
  simp [isPollSelector]

/-- R40: the operation that the host's turn brings is the one the step performs. -/
theorem step_host_run {s t : State} {ts : List Turn} {i : Instr} (hs : s.turns = .host :: ts)
    (hf : fetchHost { s with turns := ts } = .run i t) : step s = exec i t := by
  simp only [step, fetch, hs, hf]

/-- R11: what the host's turn brings without a meaning, the step refuses. -/
theorem step_host_refuse {s : State} {ts : List Turn} {r : Refusal} (hs : s.turns = .host :: ts)
    (hf : fetchHost { s with turns := ts } = .refuse r) : step s = .refused r := by
  simp only [step, fetch, hs, hf]

theorem fetchHost_nothing_presented {s : State} (h : s.hostOps = []) : fetchHost s = .run .nop s := by
  simp only [fetchHost, h]

theorem fetchHost_pollSelector {s : State} {d : Byte} {operands : List Byte} (h : s.hostOps = d :: operands)
    (hp : isPollSelector (selectorOf d) = true) : fetchHost s = .refuse (.pollOutcomeFromHost (selectorOf d)) := by
  simp only [fetchHost, h, hp, if_true]

/-- R55, R56: a presentation that decodes, with the block's own `st`, is run with exactly its bytes taken. -/
theorem fetchHost_decoded {s : State} {d : Byte} {operands rest : List Byte} {i : Instr}
    (h : s.hostOps = d :: operands) (hp : ¬ isPollSelector (selectorOf d) = true)
    (hd : decode (dispatchByte (stCode s.st) (selectorOf d) :: operands) = .ok (i, rest)) :
    fetchHost s = .run i { s with hostOps := rest } := by
  simp only [fetchHost, h, if_neg hp, hd]

/-! ### The transport's turn, while running -/

/-- R40: the operation that a poll's outcome issues is the one the step performs. -/
theorem step_poll_run {s t : State} {ts : List Turn} {i : Instr} (hs : s.turns = .poll :: ts)
    (hf : fetchPoll { s with turns := ts } = .run i t) : step s = exec i t := by
  simp only [step, fetch, hs, hf]

/-- R34, R56: the outcome "byte `b`" issues the row of the current state. -/
theorem fetchPoll_byte {s : State} {b : Byte} {rest : List (Option Byte)} (hr : running s = true)
    (ht : s.transport = some b :: rest) :
    ∃ i, rxbyteRow s.st b = some i ∧ fetchPoll s = .run i { s with transport := rest } := by
  obtain ⟨hhalt, -⟩ | ⟨-, b', rest', i, ht', hi, hf⟩ | ⟨-, hzero, -⟩ := fetchPoll_cases s
  · cases hr.symm.trans hhalt
  · cases ht.symm.trans ht'
    exact ⟨i, hi, hf⟩
  · rw [ht] at hzero
    cases hzero

/-- R34: the outcome "zero bytes", which is also that of a transport with no answer left, issues `RXIDLE`. -/
theorem fetchPoll_zeroBytes {s : State} (hr : running s = true) (ht : s.transport.headD none = none) :
    fetchPoll s = .run .rxidle { s with transport := s.transport.tail } := by
  obtain ⟨hhalt, -⟩ | ⟨-, b, rest, i, hbyte, -⟩ | ⟨-, -, hf⟩ := fetchPoll_cases s
  · cases hr.symm.trans hhalt
  · rw [hbyte] at ht
    cases ht
  · exact hf

/-- R34: the step of a poll that finds zero bytes. -/
theorem step_poll_zeroBytes {s : State} {ts : List Turn} (hs : s.turns = .poll :: ts) (hr : running s = true)
    (ht : s.transport.headD none = none) :
    step s = exec .rxidle { s with turns := ts, transport := s.transport.tail } :=
  step_poll_run hs (fetchPoll_zeroBytes (s := { s with turns := ts }) hr ht)

/-! ### Where a row of `RXBYTE` stores -/

/-- R97: the one byte that a row does not store. -/
theorem rowEffect_discards {st : St} {b : Byte} (h : st = .awaitStart ∧ b ≠ Config.sync) (s : State) :
    rowEffect st b s = s := by
  obtain ⟨rfl, hb⟩ := h
  exact if_neg hb

/-- R96: in a running state every other byte is appended. -/
theorem rowEffect_stores {st : St} {b : Byte} (hr : stRunning st = true) (h : ¬ (st = .awaitStart ∧ b ≠ Config.sync))
    (s : State) : ∃ rem st', rowEffect st b s = accumulate s b rem st' := by
  cases st with
  | off => cases hr
  | awaitStart => exact ⟨_, _, if_pos (not_not.mp fun hb => h ⟨rfl, hb⟩)⟩
  | inAddress => exact ⟨_, _, rfl⟩
  | awaitSecondSync => exact ⟨_, _, rfl⟩
  | inControl => exact ⟨_, _, rfl⟩
  | inLength =>
    by_cases hb : b = 0
    · exact ⟨_, _, if_pos hb⟩
    · exact ⟨_, _, if_neg hb⟩
  | inPayload => exact ⟨_, _, rfl⟩
  | inChecksum => exact ⟨_, _, rfl⟩
  | inEof => exact ⟨_, _, rfl⟩
  | done => cases hr
  | noFrame => cases hr

/-- R32: nothing stands at `len(buf)` before a byte is stored there. -/
theorem readBuf_length (s : State) : readBuf s s.buf.length = none :=
  List.getElem?_eq_none le_rfl

/-! ### The codec unit -/

/-- R77: `ENC` of a payload of `n` bytes. -/
theorem exec_enc_of_length {n : Byte} {p : List Byte} (h : p.length = n.toNat) (a : Address) (c : Byte) (s : State) :
    exec (.enc a c n p) s = .next { s with result := .frame (encodeFrame a c n p) } :=
  if_pos h

/-! ### The statements -/

/-- Settles O34, operation by operation: only `ENC` can be refused, and `wf` is what keeps it from that. -/
theorem codecUnitIsApart : Obligations.CodecUnitIsApart := by
  intro i hi hwf
  cases i with
  | nop => exact ⟨_, fun _ => rfl⟩
  | rev6 a => exact ⟨_, fun _ => rfl⟩
  | obf b => exact ⟨_, fun _ => rfl⟩
  | deobf w => exact ⟨_, fun _ => rfl⟩
  | cksum q => exact ⟨_, fun _ => rfl⟩
  | ckvfy q c => exact ⟨_, fun _ => rfl⟩
  | enc a c n p => exact ⟨_, exec_enc_of_length (beq_iff_eq.mp hwf) a c⟩
  | dec f => exact ⟨_, fun _ => rfl⟩
  | _ => cases hi

/-- Settles O43: a row either discards its byte, which only `AWAIT_START` does, or appends it. -/
theorem rxbyteStoresAtTheEndOnly : Obligations.RxbyteStoresAtTheEndOnly := by
  intro b s i hi
  refine ⟨_, exec_own_row hi, ?_⟩
  by_cases h : s.st = .awaitStart ∧ b ≠ 0x68
  · rw [rowEffect_discards h, if_pos h]
    exact ⟨fun _ _ => rfl, readBuf_length s, rfl, rfl, rfl, rfl, rfl⟩
  · obtain ⟨rem, st, he⟩ := rowEffect_stores (running_of_rxbyteRow hi) h (clearIdle s)
    have hread := readBuf_accumulate (clearIdle s) b rem st
    rw [he, if_neg h]
    exact ⟨fun addr haddr => (hread addr).trans (if_neg haddr), (hread _).trans (if_pos rfl), rfl, rfl, rfl, rfl, rfl⟩

/-- Settles O9. -/
theorem stepRunsHostOperation : Obligations.StepRunsHostOperation := by
  intro s ts hs
  refine ⟨fun hops => step_host_run hs (fetchHost_nothing_presented hops), fun d operands rest i hops h9 hA hd => ?_⟩
  have hp : ¬ isPollSelector (selectorOf d) = true := by
    rw [isPollSelector_iff]
    exact not_or.mpr ⟨h9, hA⟩
  exact step_host_run hs (fetchHost_decoded hops hp hd)

/-- Settles O10, answer by answer: a byte, zero bytes, no answer left. -/
theorem stepRunsPollOutcome : Obligations.StepRunsPollOutcome := by
  intro s ts hs hr
  refine ⟨fun b rest ht => ?_, fun rest ht => ?_, fun ht => ?_⟩
  · obtain ⟨i, hi, hf⟩ := fetchPoll_byte (s := { s with turns := ts }) hr ht
    exact ⟨i, hi, step_poll_run hs hf⟩
  · simpa only [ht, List.tail_cons] using step_poll_zeroBytes hs hr (by rw [ht]; rfl)
  · simpa only [ht, List.tail_nil] using step_poll_zeroBytes hs hr (by rw [ht]; rfl)

/-- Settles O13. -/
theorem hostCannotIssuePollOutcome : Obligations.HostCannotIssuePollOutcome :=
  fun _ _ _ _ hs hops hsel => step_host_refuse hs (fetchHost_pollSelector hops ((isPollSelector_iff _).mpr hsel))

end Sys2Proof.Machine
end

section
/-! PROOFS. The statements of spec/30_encoding.md: what the encoder writes is read back, with the block's own `st` in the
dispatch byte too; and what has no meaning is refused. -/

namespace Sys2Proof.Machine

/-! ### Reading back what the encoder writes -/

theorem map_eq_ok {α β ε : Type} {x : Except ε α} {a : α} (h : x = .ok a) (f : α → β) : x.map f = .ok (f a) := by
  rw [h]; rfl

/-- Format `FSB`. -/
theorem decodeCkvfy_encodeSeq (s : List Byte) (c : Byte) (rest : List Byte) :
    decodeCkvfy (encodeSeq s ++ [c] ++ rest) = .ok (.ckvfy s c, rest) := by
  rw [decodeCkvfy, List.append_assoc, takeSeq_encodeSeq]; rfl

/-- Format `FE`; R78: the payload is as long as `n` says. -/
theorem decodeEnc_encodeAddress {n : Byte} {p : List Byte} (h : p.length = n.toNat) (a : Address) (c : Byte)
    (rest : List Byte) : decodeEnc (encodeAddress a ++ c :: n :: p ++ rest) = .ok (.enc a c n p, rest) := by
  have hp : takeBytes n.toNat (p ++ rest) = .ok (p, rest) := h ▸ takeBytes_append p rest
  exact map_eq_ok hp _

/-- R55, R56: the selector that an operation's presentation has is not one of a poll's outcome, and with it the operands
are read back whatever `st` stands in the dispatch byte. -/
def readBackInAnyState (i : Instr) : Prop :=
  ∃ op operands, encode i = dispatchByte 0 op :: operands ∧ isPollSelector op = false ∧
    ∀ st rest, decodeOp st op (operands ++ rest) = .ok (i, rest)

/-- R55: the operations that the host can issue are those. -/
theorem readBackInAnyState_of_isHostOp {i : Instr} (hi : isHostOp i = true) (hwf : i.wf = true) :
    readBackInAnyState i := by
  cases i with
  | nop => exact ⟨0x0, _, rfl, rfl, fun _ _ => rfl⟩
  | rev6 a => exact ⟨0x1, _, rfl, rfl, fun _ _ => rfl⟩
  | obf b => exact ⟨0x2, _, rfl, rfl, fun _ _ => rfl⟩
  | deobf w => exact ⟨0x3, _, rfl, rfl, fun _ _ => rfl⟩
  | cksum s => exact ⟨0x4, _, rfl, rfl, fun _ rest => map_eq_ok (takeSeq_encodeSeq s rest) _⟩
  | ckvfy s c => exact ⟨0x5, _, rfl, rfl, fun _ rest => decodeCkvfy_encodeSeq s c rest⟩
  | enc a c n p => exact ⟨0x6, _, rfl, rfl, fun _ rest => decodeEnc_encodeAddress (beq_iff_eq.mp hwf) a c rest⟩
  | dec f => exact ⟨0x7, _, rfl, rfl, fun _ rest => map_eq_ok (takeSeq_encodeSeq f rest) _⟩
  | rxstart m =>
    exact ⟨0x8, _, rfl, rfl, fun _ rest => map_eq_ok (takeCount_encodeCount m rest) fun r => (Instr.rxstart r.1, r.2)⟩
  | reservedB => exact ⟨0xB, _, rfl, rfl, fun _ _ => rfl⟩
  | reservedC => exact ⟨0xC, _, rfl, rfl, fun _ _ => rfl⟩
  | reservedD => exact ⟨0xD, _, rfl, rfl, fun _ _ => rfl⟩
  | reservedE => exact ⟨0xE, _, rfl, rfl, fun _ _ => rfl⟩
  | reservedF => exact ⟨0xF, _, rfl, rfl, fun _ _ => rfl⟩
  | _ => cases hi

/-- R56: a row of `RXBYTE` is written with its own state in the dispatch byte, and read back by it. -/
theorem decode_encode_of_rxbyteRow {st : St} {b : Byte} {i : Instr} (h : rxbyteRow st b = some i) (rest : List Byte) :
    decode (encode i ++ rest) = .ok (i, rest) := by
  cases st with
  | off | done | noFrame => cases h
  | _ => cases h; rfl

/-- R55, R56: an operation is one of the host's, or `RXIDLE`, or a row of `RXBYTE`. -/
theorem isHostOp_or_pollOutcome (i : Instr) : isHostOp i = true ∨ i = .rxidle ∨ ∃ st b, rxbyteRow st b = some i := by
  cases i with
  | rxidle => exact .inr (.inl rfl)
  | rxbyteAwaitStart b => exact .inr (.inr ⟨.awaitStart, b, rfl⟩)
  | rxbyteInAddress b => exact .inr (.inr ⟨.inAddress, b, rfl⟩)
  | rxbyteAwaitSecondSync b => exact .inr (.inr ⟨.awaitSecondSync, b, rfl⟩)
  | rxbyteInControl b => exact .inr (.inr ⟨.inControl, b, rfl⟩)
  | rxbyteInLength b => exact .inr (.inr ⟨.inLength, b, rfl⟩)
  | rxbyteInPayload b => exact .inr (.inr ⟨.inPayload, b, rfl⟩)
  | rxbyteInChecksum b => exact .inr (.inr ⟨.inChecksum, b, rfl⟩)
  | rxbyteInEof b => exact .inr (.inr ⟨.inEof, b, rfl⟩)
  | _ => exact .inl rfl

/-- Settles O15: an operation of the host is read back whatever `st` is, so with the 0 written there too. -/
theorem decodeOfEncodeIsIdentity : Obligations.DecodeOfEncodeIsIdentity := by
  intro i rest hwf
  obtain hi | rfl | ⟨st, b, hrow⟩ := isHostOp_or_pollOutcome i
  · obtain ⟨op, operands, henc, -, hread⟩ := readBackInAnyState_of_isHostOp hi hwf
    rw [henc, List.cons_append, decode_dispatchByte, hread]
  · rfl
  · exact decode_encode_of_rxbyteRow hrow rest

/-! ### The presentation of an issued operation -/

/-- R55, R56: on the host's turn, the presentation of an operation is run as that operation in every state of the block,
and the bytes after it stay. -/
theorem fetchHost_encode {s : State} {i : Instr} {rest : List Byte} (hi : isHostOp i = true) (hwf : i.wf = true)
    (h : s.hostOps = encode i ++ rest) : fetchHost s = .run i { s with hostOps := rest } := by
  obtain ⟨op, operands, henc, hp, hread⟩ := readBackInAnyState_of_isHostOp hi hwf
  rw [henc, List.cons_append] at h
  refine fetchHost_decoded h ?_ ?_
  · rw [selectorOf_dispatchByte, hp]
    exact Bool.false_ne_true
  · rw [selectorOf_dispatchByte, decode_dispatchByte, hread]

/-- Settles O17: the turn and the bytes that issuing added are the ones that the step takes. -/
theorem issuedOperationIsPerformed : Obligations.IssuedOperationIsPerformed := by
  rintro s i ⟨hturns, hops, -⟩ hwf hidle hrow
  have hi : isHostOp i = true :=
    (isHostOp_or_pollOutcome i).resolve_right (not_or.mpr ⟨hidle, fun ⟨st, b, h⟩ => hrow st b h⟩)
  have hturn : (issue s i).turns = .host :: s.turns := by rw [issue_turns, hturns]; rfl
  have hbytes : (issue s i).hostOps = encode i ++ s.hostOps := by
    rw [issue_hostOps, hops, List.nil_append, List.append_nil]
  exact step_host_run hturn (fetchHost_encode (s := { issue s i with turns := s.turns }) hi hwf hbytes)

/-! ### The table's words -/

/-- Settles O14, word by word. -/
theorem decoderReadsDispatchWords : Obligations.DecoderReadsDispatchWords :=
  ⟨rfl, rfl, rfl, rfl, rfl, rfl, rfl, rfl, rfl, rfl, rfl⟩

/-! ### What is refused -/

/-- Settles O45: each arm of the reserved selectors is the one refusal of R57. -/
theorem reservedSelectorsAreRefused : Obligations.ReservedSelectorsAreRefused :=
  fun _ => ⟨rfl, rfl, rfl, rfl, rfl⟩

/-- Settles O46: of what a row of `RXBYTE` can answer, only the refusal is that of another running state. -/
theorem otherRowsOfRxbyteAreRefused : Obligations.OtherRowsOfRxbyteAreRefused := by
  intro s st b i hr hne hrow
  obtain ⟨hst, -⟩ | ⟨-, -, he⟩ | ⟨-, hhalt, -⟩ := onRow_cases st (rowEffect st b) s
  · exact absurd hst.symm hne
  · exact (exec_of_rxbyteRow hrow s).trans he
  · cases hr.symm.trans hhalt

/-- R56: on the host's turn, bytes that are no operation are refused with the decoder's reason. -/
theorem fetchHost_undecodable {s : State} {d : Byte} {operands : List Byte} {e : DecodeError}
    (h : s.hostOps = d :: operands) (hp : ¬ isPollSelector (selectorOf d) = true)
    (hd : decode (dispatchByte (stCode s.st) (selectorOf d) :: operands) = .error e) :
    fetchHost s = .refuse (.undecodable e) := by
  simp only [fetchHost, h, if_neg hp, hd]

/-- Settles O47. -/
theorem undecodablePresentationIsRefused : Obligations.UndecodablePresentationIsRefused := by
  intro s ts d operands e hs hops h9 hA hd
  have hp : ¬ isPollSelector (selectorOf d) = true := mt (isPollSelector_iff _).mp (not_or.mpr ⟨h9, hA⟩)
  exact step_host_refuse hs (fetchHost_undecodable hops hp hd)

end Sys2Proof.Machine
end

section
/-! PROOFS. The statements of spec/40_codec_primitives.md: reversal, obfuscation and the checksum as arithmetic, and that
none of them, nor `NOP`, touches the state. -/

namespace Sys2Proof.Machine

/-! ### What each operation answers -/

theorem exec_nop (s : State) : exec .nop s = .next { s with result := .none } := rfl

theorem exec_rev6 (a : Address) (s : State) : exec (.rev6 a) s = .next { s with result := .address (rev6 a) } := rfl

theorem exec_obf (b : Byte) (s : State) : exec (.obf b) s = .next { s with result := .byte (obfByte b) } := rfl

theorem exec_deobf (w : Byte) (s : State) : exec (.deobf w) s = .next { s with result := .byte (deobfByte w) } := rfl

theorem exec_cksum (q : List Byte) (s : State) : exec (.cksum q) s = .next { s with result := .byte (sum8 q) } := rfl

theorem exec_ckvfy (q : List Byte) (c : Byte) (s : State) :
    exec (.ckvfy q c) s = .next { s with result := .valid (checksumValid q c) } := rfl

/-- R40, R72: a step without a turn is `NOP`. -/
theorem step_of_no_turn {s : State} (h : s.turns = []) : step s = exec .nop s := by
  simp only [step, fetch, h]

/-! ### Reversal -/

theorem byteAt_reverse {s : List Byte} {k : Nat} (h : k < s.length) :
    byteAt s.reverse k = byteAt s (s.length - 1 - k) := by
  simp only [byteAt, List.getD_eq_getElem?_getD, List.getElem?_reverse h]

/-- R63. -/
theorem addressBytes_rev6 (a : Address) : addressBytes (rev6 a) = (addressBytes a).reverse := rfl

/-- R64. -/
@[simp] theorem rev6_rev6 (a : Address) : rev6 (rev6 a) = a := rfl

/-! ### Obfuscation -/

/-- R66: as integers. -/
theorem obfByte_toNat (b : Byte) : (obfByte b).toNat = (b.toNat + 0x33) % 256 := BitVec.toNat_add b Config.obfK

/-- R67: as integers, where the residue is the least non-negative one. -/
theorem deobfByte_toNat (w : Byte) : ((deobfByte w).toNat : Int) = ((w.toNat : Int) - 0x33) % 256 := by
  have h : (deobfByte w).toNat = (256 - 0x33 + w.toNat) % 256 := BitVec.toNat_sub w Config.obfK
  omega

/-- R68. -/
@[simp] theorem deobfByte_obfByte (b : Byte) : deobfByte (obfByte b) = b := BitVec.add_sub_cancel b Config.obfK

/-- R68. -/
@[simp] theorem obfByte_deobfByte (w : Byte) : obfByte (deobfByte w) = w := BitVec.sub_add_cancel w Config.obfK

/-- R68: the offset is not 0. -/
theorem obfByte_ne (b : Byte) : obfByte b ≠ b := fun h => absurd (add_eq_left.mp h) (by decide)

/-- R68: a fixed point of `DEOBF` would be one of `OBF`. -/
theorem deobfByte_ne (w : Byte) : deobfByte w ≠ w := fun h =>
  obfByte_ne w (by simpa only [obfByte_deobfByte] using (congrArg obfByte h).symm)

/-- R68: twice the offset is `0x66`. -/
theorem obfByte_obfByte (b : Byte) : obfByte (obfByte b) = add8 b 0x66 := BitVec.add_assoc b Config.obfK Config.obfK

/-! ### One byte of a sequence changed -/

theorem byteAt_set_of_ne {q : List Byte} {i j : Nat} (b : Byte) (h : i ≠ j) : byteAt (q.set i b) j = byteAt q j := by
  simp only [byteAt, List.getD_eq_getElem?_getD, List.getElem?_set_ne h]

theorem byteSum_cons (b : Byte) (q : List Byte) : byteSum (b :: q) = b.toNat + byteSum q := by
  rw [byteSum, List.map_cons, List.sum_cons, byteSum]

/-- R69: the integer sum gains the new byte and loses the old one. -/
theorem byteSum_set {q : List Byte} {i : Nat} (b : Byte) (h : i < q.length) :
    byteSum (q.set i b) + (byteAt q i).toNat = byteSum q + b.toNat := by
  induction q generalizing i with
  | nil => cases h
  | cons c q ih =>
    cases i with
    | zero =>
      have hfirst : byteAt (c :: q) 0 = c := rfl
      rw [List.set_cons_zero, byteSum_cons, byteSum_cons, hfirst]
      omega
    | succ i =>
      have hlater : byteAt (c :: q) (i + 1) = byteAt q i := rfl
      have hi := ih (Nat.lt_of_succ_lt_succ h)
      rw [List.set_cons_succ, byteSum_cons, byteSum_cons, hlater]
      omega

/-- R69: the low 8 bits of the integer sum. -/
theorem sum8_eq_ofNat (q : List Byte) : sum8 q = BitVec.ofNat 8 (byteSum q) :=
  BitVec.eq_of_toNat_eq (sum8_toNat q)

/-- R69: the same of the checksum. -/
theorem sum8_set {q : List Byte} {i : Nat} (b : Byte) (h : i < q.length) :
    sum8 (q.set i b) + byteAt q i = sum8 q + b := by
  simpa only [sum8_eq_ofNat, BitVec.ofNat_add, BitVec.ofNat_toNat, BitVec.setWidth_eq] using
    congrArg (BitVec.ofNat 8) (byteSum_set b h)

/-- R70 (c): `+d` on one byte is `+d` on the checksum. -/
theorem sum8_set_add8 {q : List Byte} {i : Nat} (d : Byte) (h : i < q.length) :
    sum8 (q.set i (add8 (byteAt q i) d)) = add8 (sum8 q) d := by
  have hset := sum8_set (add8 (byteAt q i) d) h
  rw [add8, add_left_comm, add_comm] at hset
  exact add_left_cancel hset

/-- R70 (c): `-d` on one byte is `-d` on the checksum. -/
theorem sum8_set_sub8 {q : List Byte} {i : Nat} (d : Byte) (h : i < q.length) :
    sum8 (q.set i (sub8 (byteAt q i) d)) = sub8 (sum8 q) d := by
  simpa only [add8, sub8, sub_eq_add_neg] using sum8_set_add8 (-d) h

/-- R70 (b): the checksum sees every change of a single byte. -/
theorem sum8_set_ne {q : List Byte} {i : Nat} {b : Byte} (h : i < q.length) (hb : b ≠ byteAt q i) :
    sum8 (q.set i b) ≠ sum8 q := fun heq => by
  have hset := sum8_set b h
  rw [heq] at hset
  exact hb (add_left_cancel hset).symm

/-! ### One bit flipped -/

theorem flipBit_flipBit (b : Byte) (k : Nat) : flipBit (flipBit b k) k = b := by
  simp only [flipBit, BitVec.xor_assoc, BitVec.xor_self, BitVec.xor_zero]

/-- R90: bit `k` and no other. -/
theorem getLsbD_flipBit (b : Byte) {k : Nat} (hk : k < 8) (i : Nat) :
    (flipBit b k).getLsbD i = (b.getLsbD i ^^ decide (k = i)) := by
  rw [flipBit, ← BitVec.twoPow_eq, BitVec.getLsbD_xor, BitVec.getLsbD_twoPow, decide_eq_true hk, Bool.true_and]

/-- R70 (b): a bit that was 0 adds `2^k`, without a carry. -/
theorem flipBit_toNat_of_clear {b : Byte} {k : Nat} (hk : k < 8) (hb : b.getLsbD k = false) :
    (flipBit b k).toNat = b.toNat + 2 ^ k := by
  have hdisjoint : b &&& BitVec.twoPow 8 k = 0#8 := by rw [BitVec.and_twoPow, hb]; rfl
  have hflip : flipBit b k = b + BitVec.twoPow 8 k := by
    rw [BitVec.add_eq_or_of_and_eq_zero _ _ hdisjoint]
    refine BitVec.eq_of_getLsbD_eq fun i _ => ?_
    rw [getLsbD_flipBit b hk, BitVec.getLsbD_or, BitVec.getLsbD_twoPow, decide_eq_true hk, Bool.true_and]
    by_cases hi : k = i
    · rw [← hi, hb, Bool.false_xor, Bool.false_or]
    · rw [decide_eq_false hi, Bool.xor_false, Bool.or_false]
  rw [hflip, BitVec.toNat_add_of_and_eq_zero hdisjoint, BitVec.toNat_twoPow_of_lt hk]

/-- R70 (b): a bit that was 1 takes `2^k` away, for flipping it back adds that much. -/
theorem flipBit_toNat_of_set {b : Byte} {k : Nat} (hk : k < 8) (hb : b.getLsbD k = true) :
    (flipBit b k).toNat + 2 ^ k = b.toNat := by
  have hclear : (flipBit b k).getLsbD k = false := by
    rw [getLsbD_flipBit b hk, hb, decide_eq_true rfl]; rfl
  rw [← flipBit_toNat_of_clear hk hclear, flipBit_flipBit]

/-- R70 (b): plus or minus `2^k`. -/
theorem flipBit_toNat (b : Byte) {k : Nat} (hk : k < 8) :
    (flipBit b k).toNat = b.toNat + 2 ^ k ∨ (flipBit b k).toNat + 2 ^ k = b.toNat := by
  cases hb : b.getLsbD k with
  | false => exact .inl (flipBit_toNat_of_clear hk hb)
  | true => exact .inr (flipBit_toNat_of_set hk hb)

theorem flipBit_ne (b : Byte) {k : Nat} (hk : k < 8) : flipBit b k ≠ b := fun h => by
  have hpos : 0 < 2 ^ k := Nat.two_pow_pos k
  have hchange := flipBit_toNat b hk
  rw [h] at hchange
  omega

/-! ### What the checksum does not see -/

/-- R70 (c). -/
theorem sum8_perm {q r : List Byte} (h : q.Perm r) : sum8 q = sum8 r := by
  rw [sum8_eq_ofNat, sum8_eq_ofNat, byteSum, byteSum, (h.map BitVec.toNat).sum_eq]

/-- R70 (c). -/
theorem sum8_replicate_zero (n : Nat) : sum8 (List.replicate n 0) = 0 := by
  induction n with
  | zero => rfl
  | succ n ih => rw [List.replicate_succ, sum8, ih]; rfl

/-! ### The statements -/

/-- Settles O24. -/
theorem cksumSumsModulo256 : Obligations.CksumSumsModulo256 :=
  fun q s => ⟨sum8 q, exec_cksum q s, sum8_toNat q⟩

/-- Settles O25. -/
theorem ckvfyComparesTheSum : Obligations.CkvfyComparesTheSum :=
  fun q c s => ⟨checksumValid q c, exec_ckvfy q c s, checksumValid_iff q c⟩

/-- Settles O26, law by law; in (b) the one byte changed carries the change of its bit into the sum. -/
theorem checksumLaws : Obligations.ChecksumLaws := by
  refine ⟨sum8_append, fun q i k hi hk => ⟨?_, sum8_set_ne hi (flipBit_ne _ hk)⟩, fun _ _ => sum8_perm,
    fun q i j d hi hj hij => ?_, fun q r n => ?_⟩
  · have hsum := byteSum_set (flipBit (byteAt q i) k) hi
    have hflip := flipBit_toNat (byteAt q i) hk
    zify at hsum hflip
    omega
  · have hsub := sum8_set_sub8 (q := q.set i (add8 (byteAt q i) d)) d (by rwa [List.length_set])
    rw [byteAt_set_of_ne _ hij, sum8_set_add8 d hi] at hsub
    exact hsub.trans (BitVec.add_sub_cancel (sum8 q) d)
  · rw [sum8_append, sum8_append, sum8_append, sum8_replicate_zero, add8, add8, add_zero, add8]

/-- Settles O12: a step without a turn is `NOP`. -/
theorem stepWithNoTurnIsNop : Obligations.StepWithNoTurnIsNop :=
  fun s hs => (step_of_no_turn hs).trans (exec_nop s)

/-- Settles O18. -/
theorem nopChangesNothing : Obligations.NopChangesNothing := exec_nop

/-- Settles O19. -/
theorem rev6ReversesTheBytes : Obligations.Rev6ReversesTheBytes := by
  refine fun a s => ⟨rev6 a, exec_rev6 a s, addressBytes_rev6 a, fun k hk => ?_⟩
  rw [addressBytes_rev6]
  exact byteAt_reverse hk

/-- Settles O20: what `REV6` returned is the reversed address. -/
theorem rev6IsAnInvolution : Obligations.Rev6IsAnInvolution := by
  intro a r s t h
  obtain rfl : rev6 a = r := Result.address.inj (congrArg State.result (Host.Outcome.next.inj h))
  rw [exec_rev6, rev6_rev6]

/-- Settles O21. -/
theorem obfAddsTheOffset : Obligations.ObfAddsTheOffset :=
  fun b s => ⟨obfByte b, exec_obf b s, obfByte_toNat b⟩

/-- Settles O22. -/
theorem deobfSubtractsTheOffset : Obligations.DeobfSubtractsTheOffset :=
  fun w s => ⟨deobfByte w, exec_deobf w s, deobfByte_toNat w⟩

/-- Settles O23: each of the two is the other's inverse on both sides, so both are bijections. -/
theorem obfuscationLaws : Obligations.ObfuscationLaws :=
  have hdeobf : Function.LeftInverse deobfByte obfByte := deobfByte_obfByte
  have hobf : Function.LeftInverse obfByte deobfByte := obfByte_deobfByte
  ⟨hdeobf, hobf, ⟨hdeobf.injective, hobf.surjective⟩, ⟨hobf.injective, hdeobf.surjective⟩, obfByte_ne, deobfByte_ne,
    obfByte_obfByte, 0, by decide⟩

end Sys2Proof.Machine
end

section
/-! PROOFS. The statements of spec/41_codec_ops.md: the layout of an encoded frame, how `DEC` finds its fields, that the
two undo each other, and which damage the checksum sees. -/

namespace Sys2Proof.Machine

/-! ### Bytes and parts of a sequence -/

theorem byteAt_eq_getElem {s : List Byte} {i : Nat} (h : i < s.length) : byteAt s i = s[i] :=
  (List.getElem_eq_getD 0).symm

/-- R10: a position past the first `i` bytes, counted from there. -/
theorem byteAt_drop (s : List Byte) (i k : Nat) : byteAt (s.drop i) k = byteAt s (i + k) := by
  simp only [byteAt, List.getD_eq_getElem?_getD, List.getElem?_drop]

theorem byteAt_append_left {s t : List Byte} {i : Nat} (h : i < s.length) : byteAt (s ++ t) i = byteAt s i := by
  simp only [byteAt, List.getD_eq_getElem?_getD, List.getElem?_append_left h]

theorem byteAt_append_length (s t : List Byte) (k : Nat) : byteAt (s ++ t) (s.length + k) = byteAt t k := by
  rw [← byteAt_drop, List.drop_left]

theorem byteAt_map (f : Byte → Byte) {s : List Byte} {i : Nat} (h : i < s.length) :
    byteAt (s.map f) i = f (byteAt s i) := by
  rw [byteAt_eq_getElem h, byteAt_eq_getElem (by rwa [List.length_map]), List.getElem_map]

theorem byteAt_slice {s : List Byte} {i j k : Nat} (h : i + k ≤ j) : byteAt (slice s i j) k = byteAt s (i + k) := by
  have hk : k < j + 1 - i := by omega
  rw [← byteAt_drop]
  simp only [slice, byteAt, List.getD_eq_getElem?_getD, List.getElem?_take_of_lt hk]

theorem slice_length {s : List Byte} {i j : Nat} (h : j < s.length) : (slice s i j).length = j + 1 - i := by
  simp only [slice, List.length_take, List.length_drop]
  omega

/-- R10: the bytes up to `j`, without the first `i`. -/
theorem slice_eq_drop_take (s : List Byte) (i j : Nat) : slice s i j = (s.take (j + 1)).drop i :=
  (List.drop_take ..).symm

/-! ### What stands before the last two bytes, and those -/

theorem exists_eq_append_pair {g : List Byte} (h : 2 ≤ g.length) : ∃ b k e, g = b ++ [k, e] := by
  have hlen : (g.drop (g.length - 2)).length = 2 := by rw [List.length_drop]; omega
  obtain ⟨k, e, hke⟩ := List.length_eq_two.mp hlen
  exact ⟨g.take (g.length - 2), k, e, by rw [← hke, List.take_append_drop]⟩

theorem append_pair_length (b : List Byte) (k e : Byte) : (b ++ [k, e]).length = b.length + 2 :=
  List.length_append

/-- R83 to R85: all but the last two bytes, from position `i`. -/
theorem slice_append_pair {b : List Byte} (h : 1 ≤ b.length) (i : Nat) (k e : Byte) :
    slice (b ++ [k, e]) i ((b ++ [k, e]).length - 3) = b.drop i := by
  have hlen : (b ++ [k, e]).length - 3 + 1 = b.length := by rw [append_pair_length]; omega
  rw [slice_eq_drop_take, hlen, List.take_left]

theorem byteAt_append_pair_fst (b : List Byte) (k e : Byte) :
    byteAt (b ++ [k, e]) ((b ++ [k, e]).length - 2) = k := by
  rw [append_pair_length]
  exact byteAt_append_length b [k, e] 0

theorem byteAt_append_pair_snd (b : List Byte) (k e : Byte) :
    byteAt (b ++ [k, e]) ((b ++ [k, e]).length - 1) = e := by
  rw [append_pair_length]
  exact byteAt_append_length b [k, e] 1

/-! ### Sums of bytes -/

theorem byteSum_append (s t : List Byte) : byteSum (s ++ t) = byteSum s + byteSum t := by
  simp only [byteSum, List.map_append, List.sum_append]

theorem byteSum_reverse (s : List Byte) : byteSum s.reverse = byteSum s := by
  simp only [byteSum, List.map_reverse, List.sum_reverse]

/-! ### The payload, obfuscated byte by byte -/

/-- R68. -/
theorem map_deobfByte_map_obfByte (p : List Byte) : (p.map obfByte).map deobfByte = p := by
  simp only [List.map_map, Function.comp_def, deobfByte_obfByte, List.map_id']

/-- R68. -/
theorem map_obfByte_map_deobfByte (w : List Byte) : (w.map deobfByte).map obfByte = w := by
  simp only [List.map_map, Function.comp_def, obfByte_deobfByte, List.map_id']

/-- R77: each byte of a payload adds the offset to the sum, modulo 256. -/
theorem byteSum_map_obfByte (p : List Byte) : byteSum (p.map obfByte) % 256 = (byteSum p + 0x33 * p.length) % 256 := by
  induction p with
  | nil => rfl
  | cons b p ih =>
    have hb := obfByte_toNat b
    rw [List.map_cons, byteSum_cons, byteSum_cons, List.length_cons]
    omega

/-! ### The layout of a frame -/

/-- R77, R53: a bare frame, the encoded frame without its preamble. -/
def bareFrame (a : Address) (c n : Byte) (p : List Byte) : List Byte :=
  frameBody a c n p ++ [sum8 (frameBody a c n p), Config.term]

/-- R77: the preamble is a run of two `0xFE`. -/
theorem encodeFrame_eq (a : Address) (c n : Byte) (p : List Byte) :
    encodeFrame a c n p = List.replicate 2 Config.pre ++ bareFrame a c n p := rfl

theorem encodeFrame_drop (a : Address) (c n : Byte) (p : List Byte) :
    (encodeFrame a c n p).drop 2 = bareFrame a c n p := rfl

theorem frameBody_drop (a : Address) (c n : Byte) (p : List Byte) :
    (frameBody a c n p).drop 10 = p.map obfByte := rfl

/-- R77: the integer sum of the bytes that the checksum covers, part by part. -/
theorem byteSum_frameBody (a : Address) (c n : Byte) (p : List Byte) :
    byteSum (frameBody a c n p) =
      0x68 + byteSum (addressBytes a) + 0x68 + c.toNat + n.toNat + byteSum (p.map obfByte) := by
  have hsync : Config.sync.toNat = 0x68 := rfl
  have hnil : byteSum [] = 0 := rfl
  rw [frameBody, byteSum_append, byteSum_append, byteSum_append, addressBytes_rev6, byteSum_reverse]
  simp only [byteSum_cons, hnil, hsync]
  omega

/-- R77: from the payload on, behind the twelve bytes of the preamble and the header. -/
theorem byteAt_encodeFrame_tail (a : Address) (c n : Byte) (p : List Byte) (k : Nat) :
    byteAt (encodeFrame a c n p) (12 + k) =
      byteAt (p.map obfByte ++ [sum8 (frameBody a c n p), Config.term]) k :=
  (byteAt_drop (encodeFrame a c n p) 12 k).symm

theorem byteAt_encodeFrame_payload {p : List Byte} {i : Nat} (h : i < p.length) (a : Address) (c n : Byte) :
    byteAt (encodeFrame a c n p) (12 + i) = obfByte (byteAt p i) := by
  rw [byteAt_encodeFrame_tail, byteAt_append_left (by rwa [List.length_map]), byteAt_map obfByte h]

theorem byteAt_encodeFrame_checksum (a : Address) (c n : Byte) (p : List Byte) :
    byteAt (encodeFrame a c n p) (12 + p.length) = sum8 (frameBody a c n p) := by
  have h := byteAt_append_length (p.map obfByte) [sum8 (frameBody a c n p), Config.term] 0
  rw [byteAt_encodeFrame_tail]
  rwa [List.length_map] at h

theorem byteAt_encodeFrame_term (a : Address) (c n : Byte) (p : List Byte) :
    byteAt (encodeFrame a c n p) (13 + p.length) = Config.term := by
  have h := byteAt_append_length (p.map obfByte) [sum8 (frameBody a c n p), Config.term] 1
  rw [show 13 + p.length = 12 + (p.length + 1) by omega, byteAt_encodeFrame_tail]
  rwa [List.length_map] at h

/-- R77: the wire payload as a slice. -/
theorem slice_encodeFrame_payload (a : Address) (c n : Byte) (p : List Byte) :
    slice (encodeFrame a c n p) 12 (11 + p.length) = p.map obfByte := by
  have hlen : 11 + p.length + 1 - 12 = (p.map obfByte).length := by rw [List.length_map]; omega
  rw [slice, hlen]
  exact List.take_left ..

/-! ### Well-formed frames -/

/-- R54, of a frame given as the bytes that the checksum covers, and the two after them. -/
theorem wellFormedBare_append_pair {b : List Byte} (h : 10 ≤ b.length) (k e : Byte) :
    wellFormedBare (b ++ [k, e]) ↔ byteAt b 0 = Config.sync ∧ byteAt b 7 = Config.sync ∧
      b.length = 10 + (byteAt b 9).toNat ∧ k = sum8 b ∧ e = Config.term := by
  have hslice := slice_append_pair (b := b) (by omega) 0 k e
  rw [List.drop_zero] at hslice
  rw [wellFormedBare, hslice, byteAt_append_pair_fst, byteAt_append_pair_snd, append_pair_length,
    byteAt_append_left (by omega), byteAt_append_left (by omega), byteAt_append_left (by omega)]
  constructor
  · rintro ⟨-, hfirst, hsecond, hn, hk, he⟩
    exact ⟨hfirst, hsecond, by omega, hk, he⟩
  · rintro ⟨hfirst, hsecond, hn, hk, he⟩
    exact ⟨by omega, hfirst, hsecond, by omega, hk, he⟩

/-- R79: what `ENC` builds is well-formed. -/
theorem wellFormedBare_bareFrame {n : Byte} {p : List Byte} (h : p.length = n.toNat) (a : Address) (c : Byte) :
    wellFormedBare (bareFrame a c n p) := by
  have hn : byteAt (frameBody a c n p) 9 = n := rfl
  refine (wellFormedBare_append_pair ?_ _ _).mpr ⟨rfl, rfl, ?_, rfl, rfl⟩
  · rw [frameBody_length]; omega
  · rw [hn, frameBody_length, h]

/-- R89: ten bytes with the two syncs in place, and any bytes after them, are the body of some frame. -/
theorem exists_eq_frameBody {b : List Byte} (h : 10 ≤ b.length) (hfirst : byteAt b 0 = Config.sync)
    (hsecond : byteAt b 7 = Config.sync) :
    ∃ a c p, b = frameBody a c (byteAt b 9) p ∧ b.length = 10 + p.length := by
  match b with
  | b0 :: b1 :: b2 :: b3 :: b4 :: b5 :: b6 :: b7 :: b8 :: b9 :: w =>
    obtain rfl : b0 = Config.sync := hfirst
    obtain rfl : b7 = Config.sync := hsecond
    have hb : frameBody ⟨b6, b5, b4, b3, b2, b1⟩ b8 b9 (w.map deobfByte) =
        [Config.sync, b1, b2, b3, b4, b5, b6, Config.sync, b8, b9] ++ (w.map deobfByte).map obfByte := rfl
    rw [map_obfByte_map_deobfByte] at hb
    refine ⟨⟨b6, b5, b4, b3, b2, b1⟩, b8, w.map deobfByte, hb.symm, ?_⟩
    simp only [List.length_cons, List.length_map]
    omega

/-- R89: every well-formed bare frame is one that `ENC` builds. -/
theorem exists_eq_bareFrame {g : List Byte} (h : wellFormedBare g) :
    ∃ a c n p, p.length = n.toNat ∧ g = bareFrame a c n p := by
  have hlen : 12 ≤ g.length := h.1
  obtain ⟨b, k, e, rfl⟩ := exists_eq_append_pair (g := g) (by omega)
  rw [append_pair_length] at hlen
  replace hlen : 10 ≤ b.length := by omega
  obtain ⟨hfirst, hsecond, hn, rfl, rfl⟩ := (wellFormedBare_append_pair hlen k e).mp h
  obtain ⟨a, c, p, hb, hp⟩ := exists_eq_frameBody hlen hfirst hsecond
  exact ⟨a, c, byteAt b 9, p, by omega, by rw [bareFrame, ← hb]⟩

/-! ### What `ENC` and `DEC` answer -/

/-- R78: `ENC` of a payload that is not `n` bytes. -/
theorem exec_enc_of_length_ne {n : Byte} {p : List Byte} (h : p.length ≠ n.toNat) (a : Address) (c : Byte)
    (s : State) : exec (.enc a c n p) s = .refused (.payloadLength n p.length) :=
  if_neg h

/-- R77, R78: `ENC` returns a frame exactly when the payload has `n` bytes, and then the frame of R77. -/
theorem eq_encodeFrame_of_exec_enc {a : Address} {c n : Byte} {p f : List Byte} {s : State}
    (h : exec (.enc a c n p) s = .next { s with result := .frame f }) :
    p.length = n.toNat ∧ f = encodeFrame a c n p := by
  by_cases hp : p.length = n.toNat
  · rw [exec_enc_of_length hp] at h
    exact ⟨hp, (Result.frame.inj (congrArg State.result (Host.Outcome.next.inj h))).symm⟩
  · cases (exec_enc_of_length_ne hp a c s).symm.trans h

/-- R81: `DEC` of a long enough operand reads the fields of what is left of it after stripping. -/
theorem exec_dec_fields {g : List Byte} (hpre : g.head? ≠ some Config.pre) (hlen : 12 ≤ g.length) (k : Nat)
    (s : State) :
    exec (.dec (List.replicate k Config.pre ++ g)) s = .next { s with result := decodeFields g } := by
  have hshort : ¬ g.length < Config.decMin := Nat.not_lt.mpr hlen
  have hdec : decodeFrame (List.replicate k Config.pre ++ g) = decodeFields g := by
    rw [decodeFrame, stripPreamble_replicate k g hpre, if_neg hshort]
  rw [← hdec]; rfl

/-- R82. -/
theorem exec_dec_short {g : List Byte} (hpre : g.head? ≠ some Config.pre) (hlen : g.length < 12) (k : Nat)
    (s : State) :
    exec (.dec (List.replicate k Config.pre ++ g)) s =
      .next { s with result := decodeShort (List.replicate k Config.pre ++ g) } := by
  have hdec : decodeFrame (List.replicate k Config.pre ++ g) = decodeShort (List.replicate k Config.pre ++ g) := by
    rw [decodeFrame, stripPreamble_replicate k g hpre, if_pos hlen]
  rw [← hdec]; rfl

/-- R83 to R86, of an operand given as the bytes that the checksum covers, and the two after them. -/
theorem decodeFields_append_pair {b : List Byte} (h : 10 ≤ b.length) (k e : Byte) :
    decodeFields (b ++ [k, e]) =
      .decoded (rev6 (wireAddress b)) (byteAt b 8) ((b.drop 10).map deobfByte) (checksumValid b k) := by
  have hbyte : ∀ i < 10, byteAt (b ++ [k, e]) i = byteAt b i := fun i hi => byteAt_append_left (by omega)
  have haddr : wireAddress (b ++ [k, e]) = wireAddress b := by
    simp only [wireAddress, hbyte, Nat.reduceLT]
  have hslice := slice_append_pair (b := b) (by omega)
  rw [decodeFields, haddr, hbyte 8 (by omega), hslice, hslice, byteAt_append_pair_fst, List.drop_zero]

/-- R81 to R86: the same of what `DEC` returns, behind any number of `0xFE`. -/
theorem exec_dec_append_pair {b : List Byte} (hpre : b.head? ≠ some Config.pre) (h : 10 ≤ b.length) (k e : Byte)
    (m : Nat) (s : State) :
    exec (.dec (List.replicate m Config.pre ++ (b ++ [k, e]))) s =
      .next { s with
        result := .decoded (rev6 (wireAddress b)) (byteAt b 8) ((b.drop 10).map deobfByte) (checksumValid b k) } := by
  have hhead : (b ++ [k, e]).head? ≠ some Config.pre := by
    rwa [List.head?_append_of_ne_nil b (List.ne_nil_of_length_pos (by omega))]
  rw [exec_dec_fields hhead (by rw [append_pair_length]; omega), decodeFields_append_pair h]

/-- R89: behind the bytes that the checksum covers, unchanged, `DEC` returns what was encoded whatever the last two
bytes are, and `valid` says whether the first of them is the checksum. -/
theorem exec_dec_frameBody (a : Address) (c n : Byte) (p : List Byte) (k e : Byte) (m : Nat) (s : State) :
    exec (.dec (List.replicate m Config.pre ++ (frameBody a c n p ++ [k, e]))) s =
      .next { s with result := .decoded a c p (checksumValid (frameBody a c n p) k) } := by
  have hpre : (frameBody a c n p).head? ≠ some Config.pre := by
    intro h
    exact absurd (Option.some.inj h) (by decide)
  have haddr : rev6 (wireAddress (frameBody a c n p)) = a := rfl
  have hctrl : byteAt (frameBody a c n p) 8 = c := rfl
  rw [exec_dec_append_pair hpre (by rw [frameBody_length]; omega), haddr, hctrl, frameBody_drop,
    map_deobfByte_map_obfByte]

theorem checksumValid_sum8 (b : List Byte) : checksumValid b (sum8 b) = true := beq_self_eq_true _

/-- R71: as an inequality. -/
theorem checksumValid_eq_false {b : List Byte} {k : Byte} (h : sum8 b ≠ k) : checksumValid b k = false :=
  beq_eq_false_iff_ne.mpr h

/-- R89: `DEC` of a bare frame behind any number of `0xFE`. -/
theorem exec_dec_bareFrame (a : Address) (c n : Byte) (p : List Byte) (m : Nat) (s : State) :
    exec (.dec (List.replicate m Config.pre ++ bareFrame a c n p)) s =
      .next { s with result := .decoded a c p true } := by
  rw [bareFrame, exec_dec_frameBody, checksumValid_sum8]

/-- R90 (a): one changed byte, which is not made `0xFE` in front, is seen. -/
theorem exec_dec_damaged {b : List Byte} {i : Nat} {x : Byte} (hlen : 10 ≤ b.length) (hi : i < b.length)
    (hx : x ≠ byteAt b i) (hpre : (b.set i x).head? ≠ some Config.pre) (e : Byte) (m : Nat) (s : State) :
    ∃ a c p, exec (.dec (List.replicate m Config.pre ++ (b ++ [sum8 b, e]).set i x)) s =
      .next { s with result := .decoded a c p false } := by
  rw [List.set_append_left i x hi, exec_dec_append_pair hpre (by rwa [List.length_set]),
    checksumValid_eq_false (sum8_set_ne hi hx)]
  exact ⟨_, _, _, rfl⟩

/-- R90 (a): a sync byte with one bit flipped is not `0xFE`. -/
theorem flipBit_sync_ne_pre {k : Nat} (hk : k < 8) : flipBit Config.sync k ≠ Config.pre := by
  revert k; decide

/-! ### What the decoder answers -/

/-- R78: an operation, where one is decoded, is well-formed. -/
def decodesWellFormed (d : Decoded) : Prop := ∀ i rest, d = .ok (i, rest) → i.wf = true

theorem decodesWellFormed_ok {i : Instr} (h : i.wf = true) (rest : List Byte) : decodesWellFormed (.ok (i, rest)) := by
  rintro _ _ ⟨⟩
  exact h

theorem decodesWellFormed_error (e : DecodeError) : decodesWellFormed (.error e) := fun _ _ h => nomatch h

/-- An operation whose operands are read by `x` is well-formed where every operand it takes from there makes it so. -/
theorem decodesWellFormed_map {α : Type} {x : Except DecodeError α} {f : α → Instr × List Byte}
    (h : ∀ r, x = .ok r → (f r).1.wf = true) : decodesWellFormed (x.map f) := by
  intro i rest hmap
  obtain ⟨r, hr, hf⟩ := exists_of_map_eq_ok hmap
  simpa only [hf] using h r hr

theorem decodesWellFormed_ckvfy (bs : List Byte) : decodesWellFormed (decodeCkvfy bs) := by
  unfold decodeCkvfy
  split
  · exact decodesWellFormed_error _
  · exact decodesWellFormed_map fun _ _ => rfl

/-- R78: the payload of `ENC` is read by its length. -/
theorem decodesWellFormed_enc (bs : List Byte) : decodesWellFormed (decodeEnc bs) := by
  unfold decodeEnc
  split
  · exact decodesWellFormed_map fun _ hr => beq_iff_eq.mpr (takeBytes_length hr)
  · exact decodesWellFormed_error _

theorem decodesWellFormed_rxbyte (st : BitVec 4) (bs : List Byte) : decodesWellFormed (decodeRxbyte st bs) := by
  unfold decodeRxbyte
  split
  any_goals exact decodesWellFormed_error _
  all_goals exact decodesWellFormed_map fun _ _ => rfl

/-- R55: selector by selector. -/
theorem decodesWellFormed_op (st op : BitVec 4) (bs : List Byte) : decodesWellFormed (decodeOp st op bs) := by
  unfold decodeOp
  split
  case h_6 => exact decodesWellFormed_ckvfy bs
  case h_7 => exact decodesWellFormed_enc bs
  case h_10 => exact decodesWellFormed_rxbyte st bs
  any_goals exact decodesWellFormed_ok rfl bs
  all_goals exact decodesWellFormed_map fun _ _ => rfl

/-! ### The statements -/

/-- Settles O32: an encoded frame is a run of `0xFE` and a bare frame, and the well-formed bare frames are those. -/
theorem decodeOfEncodedFrame : Obligations.DecodeOfEncodedFrame := by
  refine ⟨fun a c n p f s t _ henc => ?_, fun g s hg => ?_⟩
  · obtain ⟨-, rfl⟩ := eq_encodeFrame_of_exec_enc henc
    exact ⟨exec_dec_bareFrame a c n p 2 t, exec_dec_bareFrame a c n p 0 t⟩
  · obtain ⟨a, c, n, p, hp, rfl⟩ := exists_eq_bareFrame hg
    exact ⟨a, c, n, p, encodeFrame a c n p, exec_dec_bareFrame a c n p 0 s, hp, exec_enc_of_length hp a c s,
      encodeFrame_drop a c n p⟩

/-- Settles O16: only the payload of `ENC` could make an operation ill-formed, and it is read by its length. -/
theorem decodedOperationIsWellFormed : Obligations.DecodedOperationIsWellFormed := by
  intro bs rest i h
  cases bs with
  | nil => cases h
  | cons d operands => exact decodesWellFormed_op (stFieldOf d) (selectorOf d) operands i rest h

/-- Settles O27, byte by byte; the checksum is the sum over the body, in both forms. -/
theorem encBuildsTheFrame : Obligations.EncBuildsTheFrame := by
  intro a c n p s hp
  have hsum : (byteAt (encodeFrame a c n p) (12 + n.toNat)).toNat = (0x68 + byteSum (addressBytes a) + 0x68 + c.toNat +
      n.toNat + byteSum (p.map obfByte)) % 256 := by
    rw [← hp, byteAt_encodeFrame_checksum, sum8_toNat, hp, ← byteSum_frameBody, byteSum]
  refine ⟨encodeFrame a c n p, exec_enc_of_length hp a c s, by rw [encodeFrame_length, hp], rfl, rfl, rfl,
    fun j hj => ?_, rfl, rfl, rfl, fun i hi => ?_, ?_, ?_, ?_⟩
  · have haddr : byteAt (encodeFrame a c n p) (3 + j) = byteAt (addressBytes (rev6 a)) j := by
      interval_cases j <;> rfl
    rw [haddr, addressBytes_rev6]
    exact byteAt_reverse hj
  · rw [byteAt_encodeFrame_payload (hp ▸ hi), obfByte_toNat]
  · rw [hsum, ← hp, slice_encodeFrame_payload]
  · have hwire := byteSum_map_obfByte p
    rw [hp] at hwire
    rw [hsum]
    omega
  · rw [← hp, byteAt_encodeFrame_term]; rfl

/-- Settles O28; injectivity is O32's round trip, read backwards. -/
theorem encodedFrameIsWellFormed : Obligations.EncodedFrameIsWellFormed := by
  refine ⟨fun a c n p f s henc => ?_, fun a a' c c' n n' p p' f s henc henc' => ?_⟩
  · obtain ⟨hp, rfl⟩ := eq_encodeFrame_of_exec_enc henc
    refine ⟨by rw [encodeFrame_length, hp], ⟨rfl, rfl, wellFormedBare_bareFrame hp a c⟩, rfl, fun j hj => ?_⟩
    have hpre : byteAt (encodeFrame a c n p) j = Config.pre := by interval_cases j <;> rfl
    rw [hpre]
    decide
  · obtain ⟨hp, hf⟩ := eq_encodeFrame_of_exec_enc henc
    obtain ⟨hp', hf'⟩ := eq_encodeFrame_of_exec_enc henc'
    have hdec := (exec_dec_bareFrame a c n p 2 s).symm
    rw [← encodeFrame_eq, ← hf, hf', encodeFrame_eq, exec_dec_bareFrame] at hdec
    obtain ⟨ha, hc, hpay, -⟩ := Result.decoded.inj (congrArg State.result (Host.Outcome.next.inj hdec))
    exact ⟨ha, hc, hpay⟩

/-- Settles O30: the fields of `DEC` are read at their positions. -/
theorem decFindsFieldsByPosition : Obligations.DecFindsFieldsByPosition := by
  intro k g s hpre hlen
  have hpay : (slice g 10 (g.length - 3)).length = g.length - 12 := by rw [slice_length (by omega)]; omega
  have hbody : slice g 0 (g.length - 3) = g.take (g.length - 2) := by
    rw [slice_eq_drop_take, List.drop_zero, show g.length - 3 + 1 = g.length - 2 by omega]
  refine ⟨_, _, _, _, exec_dec_fields hpre hlen k s, fun j hj => ?_, rfl, by rw [List.length_map, hpay],
    fun j hj => ?_, ?_⟩
  · interval_cases j <;> rfl
  · rw [byteAt_map deobfByte (by rwa [hpay]), byteAt_slice (by omega), deobfByte_toNat]
  · rw [hbody]
    exact checksumValid_iff _ _

/-- Settles O33: damage in the body changes the sum, which is compared with the byte after it, and nothing is compared
with the terminator. -/
theorem damageIsDetected : Obligations.DamageIsDetected := by
  intro a c n p f s m hp henc
  obtain ⟨-, rfl⟩ := eq_encodeFrame_of_exec_enc henc
  have hlen : (frameBody a c n p).length = 10 + n.toNat := by rw [frameBody_length, hp]
  rw [encodeFrame_drop]
  refine ⟨fun i k hi hk => ?_, fun b hb => ?_, fun b => ?_⟩
  · have hi' : i < (frameBody a c n p).length := by omega
    have hbyte : byteAt (bareFrame a c n p) i = byteAt (frameBody a c n p) i := byteAt_append_left hi'
    rw [hbyte]
    refine exec_dec_damaged (by omega) hi' (flipBit_ne _ hk) ?_ _ m s
    cases i with
    | zero => exact fun h => flipBit_sync_ne_pre hk (Option.some.inj h)
    | succ i => exact fun h => absurd (Option.some.inj h) (by decide)
  · have hset : (bareFrame a c n p).set (10 + n.toNat) b = frameBody a c n p ++ [b, Config.term] := by
      rw [bareFrame, ← hlen, List.set_append_right _ _ le_rfl, Nat.sub_self]; rfl
    have hsum : byteAt (bareFrame a c n p) (10 + n.toNat) = sum8 (frameBody a c n p) := by
      rw [← hlen]; exact byteAt_append_length _ _ 0
    have hdec := exec_dec_frameBody a c n p b Config.term m s
    rw [checksumValid_eq_false (hsum ▸ hb.symm)] at hdec
    exact ⟨a, c, p, hset ▸ hdec⟩
  · have hset : (bareFrame a c n p).set (11 + n.toNat) b = frameBody a c n p ++ [sum8 (frameBody a c n p), b] := by
      rw [bareFrame, show 11 + n.toNat = (frameBody a c n p).length + 1 by omega,
        List.set_append_right _ _ (Nat.le_add_right _ _), Nat.add_sub_cancel_left]; rfl
    have hdec := exec_dec_frameBody a c n p (sum8 (frameBody a c n p)) b m s
    rw [checksumValid_sum8] at hdec
    exact hset ▸ hdec

/-- Settles O29. -/
theorem encRefusesAnotherLength : Obligations.EncRefusesAnotherLength :=
  ⟨fun a c _ _ s hp => exec_enc_of_length_ne hp a c s,
    fun a c s => ⟨_, exec_enc_of_length rfl a c s, encodeFrame_length a c 0 []⟩,
    fun a c p s hp => ⟨_, exec_enc_of_length hp a c s, by rw [encodeFrame_length, hp]⟩⟩

/-- Settles O31. -/
theorem decOfShortOperandIsInvalid : Obligations.DecOfShortOperandIsInvalid :=
  fun k _ s hpre hlen => ⟨_, _, _, exec_dec_short hpre hlen k s⟩

end Sys2Proof.Machine
end

section
/-! PROOFS. The statements of spec/42_reassembler.md about single operations and single steps: that the invariants of
R109 hold, how a run ends, and what `RXSTART`, each row of `RXBYTE` and `RXIDLE` answer. -/

namespace Sys2Proof.Machine

/-! ### The invariants -/

/-- Settles O3, by what a step can do to the block: each of its cases keeps the invariants. -/
theorem stepKeepsInvariant : Obligations.StepKeepsInvariant :=
  fun _ _ => step_keeps_frameInv

/-- Settles O4, by induction on the run: the invariants hold at reset and every step keeps them. -/
theorem reachableStateMeetsInvariant : Obligations.ReachableStateMeetsInvariant :=
  fun _ _ _ _ _ => frameInv_of_reaches_reset

/-- Settles O2. -/
theorem resetMeetsInvariant : Obligations.ResetMeetsInvariant := frameInv_reset

/-! ### How a run ends -/

/-- R105: along the chain, only `IN_EOF` leads to `DONE`. -/
theorem eq_inEof_of_advancesTo_done {st : St} (h : advancesTo st .done) (hne : st ≠ .done) : st = .inEof := by
  obtain h | ⟨k, hk, hk'⟩ | ⟨-, h⟩ := h
  · exact absurd h.symm hne
  · obtain rfl : k = 7 := Nat.succ.inj (Option.some.inj hk').symm
    cases st with
    | inEof => rfl
    | _ => cases hk
  · cases h

/-- Settles O51: of what a step can do to the block, a halted one leaves nothing, `RESET` and the begin of a run. -/
theorem outcomeStandsUntilNextRun : Obligations.OutcomeStandsUntilNextRun := by
  intro s t hend hstep
  have hhalt : running s = false := (running_eq_false_iff s).mpr (.inr hend)
  cases step_cases hstep with
  | same hb => exact .inl hb
  | reset hs hb =>
    obtain ⟨hst, hrem, hbuf, hidle, hmax⟩ := hb
    exact .inr (.inr ⟨hs, hst, hbuf, hrem, hidle, hmax⟩)
  | started m hs hm _ hb =>
    obtain ⟨hst, hrem, hbuf, hidle, hmax⟩ := hb
    exact .inr (.inl ⟨hs, hst, hbuf, hrem, hidle, hmax ▸ hm⟩)
  | byte _ _ hr _ _ => cases hr.symm.trans hhalt
  | idle _ hr _ _ _ => cases hr.symm.trans hhalt
  | timeOut _ hr _ _ _ => cases hr.symm.trans hhalt

/-- R105, R107: a step that brings the block to `DONE` or `NO_FRAME` appends a byte it took, and `st` advances; or it is
the `idle_max`-th idle poll. -/
theorem step_ends_run {s t : State} (hstep : step s = .next t) (hend : t.st = .done ∨ t.st = .noFrame)
    (hne : s.st ≠ t.st) :
    (advancesTo s.st t.st ∧ ∃ b, s.transport.head? = some (some b) ∧ t.buf = s.buf ++ [b]) ∨
      (t.st = .noFrame ∧ running s = true ∧ s.transport.headD none = none ∧ s.idle.toNat + 1 = s.idleMax.toNat) := by
  cases step_cases hstep with
  | same hb => exact absurd hb.st_eq.symm hne
  | reset _ hb => obtain h | h := hend <;> cases hb.st_eq.symm.trans h
  | started _ _ _ _ hb => obtain h | h := hend <;> cases hb.st_eq.symm.trans h
  | byte b _ _ ht hb =>
    have hst := hb.st_eq
    have hbuf := hb.buf_eq
    obtain he | ⟨rem, st, he, hadv⟩ := byteEffect_cases b s
    · rw [he] at hst
      exact absurd hst.symm hne
    · rw [he] at hst hbuf
      exact .inl ⟨hst ▸ hadv, b, ht, hbuf⟩
  | idle _ _ _ _ hb => exact absurd hb.st_eq.symm hne
  | timeOut _ hr ht hi hb => exact .inr ⟨hb.st_eq, hr, ht, hi⟩

/-- Settles O52: only `IN_EOF` advances to `DONE`, and nothing advances to `NO_FRAME`. -/
theorem runEndsOnlyAsTheRulesSay : Obligations.RunEndsOnlyAsTheRulesSay := by
  refine fun s t hstep => ⟨fun hdone hne => ?_, fun hend hne => ?_⟩
  · obtain ⟨hadv, hbyte⟩ | ⟨hno, -⟩ := step_ends_run hstep (.inl hdone) (hdone ▸ hne)
    · exact ⟨eq_inEof_of_advancesTo_done (hdone ▸ hadv) hne, hbyte⟩
    · cases hdone.symm.trans hno
  · obtain ⟨hadv, -⟩ | ⟨-, hidle⟩ := step_ends_run hstep (.inr hend) (hend ▸ hne)
    · exact absurd (eq_noFrame_of_advancesTo (hend ▸ hadv)) hne
    · exact hidle

/-! ### While halted -/

/-- R95: the poll's turn of a halted block passes. -/
theorem step_poll_halted {s : State} {ts : List Turn} (hs : s.turns = .poll :: ts) (hr : running s = false) :
    step s = .next { s with turns := ts, result := .none } := by
  obtain ⟨-, hf⟩ | ⟨hrun, -⟩ | ⟨hrun, -⟩ := fetchPoll_cases { s with turns := ts }
  · simp only [step, fetch, hs, hf]; rfl
  · cases hrun.symm.trans hr
  · cases hrun.symm.trans hr

/-- R95: `RXIDLE` while halted. -/
theorem exec_rxidle_halted {s : State} (hr : running s = false) :
    exec .rxidle s = .next { s with result := .none } := by
  obtain ⟨hrun, -⟩ | ⟨hrun, -⟩ | ⟨-, he⟩ := execRxidle_cases s
  · cases hrun.symm.trans hr
  · cases hrun.symm.trans hr
  · exact he

/-- R95: a row of `RXBYTE` while halted. -/
theorem exec_rxbyteRow_halted {st : St} {b : Byte} {i : Instr} {s : State} (hi : rxbyteRow st b = some i)
    (hr : running s = false) : exec i s = .next { s with result := .none } := by
  rw [exec_of_rxbyteRow hi]
  obtain ⟨rfl, -⟩ | ⟨-, hrun, -⟩ | ⟨-, -, he⟩ := onRow_cases st (rowEffect st b) s
  · cases (running_of_rxbyteRow hi).symm.trans hr
  · cases hrun.symm.trans hr
  · exact he

/-- Settles O11. -/
theorem haltedBlockTakesNothing : Obligations.HaltedBlockTakesNothing :=
  fun _ hr => ⟨fun _ hs => step_poll_halted hs hr, exec_rxidle_halted hr, fun _ _ _ hi => exec_rxbyteRow_halted hi hr⟩

/-! ### `RXSTART` -/

/-- Settles O35. -/
theorem rxstartBeginsARun : Obligations.RxstartBeginsARun :=
  fun _ _ hm hr => ⟨_, exec_rxstart_of_halted hm hr, rfl, rfl, rfl, rfl, rfl⟩

/-- Settles O36: of what `RXSTART` can answer, only the two refusals are left. -/
theorem rxstartRefusals : Obligations.RxstartRefusals := by
  refine ⟨fun _ => ⟨.idleMaxZero, rfl⟩, fun m s hr => ?_⟩
  obtain ⟨-, he⟩ | ⟨-, -, he⟩ | ⟨-, hhalt, -⟩ := execRxstart_cases m s
  · exact ⟨_, he⟩
  · exact ⟨_, he⟩
  · cases hr.symm.trans hhalt

/-! ### `RXBYTE`, row by row -/

/-- R94, R97 to R104: a row in its own state, given by name. -/
theorem exec_row {st : St} {b : Byte} {i : Instr} {s : State} (hi : rxbyteRow st b = some i) (hst : s.st = st) :
    exec i s = .next (returning (rowEffect st b (clearIdle s)) .none) := by
  subst hst
  exact exec_own_row hi

/-- R98, R102: whether the state moves on, told by `rem` as a number. -/
theorem countDown_eq {s : State} {st : St} (b : Byte) (next : St) (hst : s.st = st) :
    countDown s b next = accumulate s b (s.rem - 1) (if (s.rem - 1).toNat = 0 then next else st) := by
  have hzero : s.rem - 1 = 0 ↔ (s.rem - 1).toNat = 0 := BitVec.toNat_inj.symm
  rw [countDown, hst, if_congr hzero rfl rfl]

/-- Settles O37. -/
theorem huntTakesTheFirstSync : Obligations.HuntTakesTheFirstSync := by
  intro b s hst
  refine (exec_row rfl hst).trans ?_
  by_cases hb : b = 0x68
  · subst hb; rfl
  · rw [rowEffect_discards ⟨rfl, hb⟩, if_neg hb]; rfl

/-- Settles O38. -/
theorem addressByteIsCounted : Obligations.AddressByteIsCounted := by
  intro b s hst hrem
  refine ⟨s.rem - 1, rem_sub_one_toNat hrem, ?_⟩
  rw [exec_row rfl hst, rowEffect, countDown_eq (s := clearIdle s) b _ hst]; rfl

/-- Settles O42. -/
theorem payloadByteIsCounted : Obligations.PayloadByteIsCounted := by
  intro b s hst hrem
  refine ⟨s.rem - 1, rem_sub_one_toNat hrem, ?_⟩
  rw [exec_row rfl hst, rowEffect, countDown_eq (s := clearIdle s) b _ hst]; rfl

/-- Settles O39. -/
theorem singleByteStatesTakeAnyByte : Obligations.SingleByteStatesTakeAnyByte :=
  fun _ _ => ⟨exec_row rfl, exec_row rfl, exec_row rfl⟩

/-- Settles O41. -/
theorem lengthByteBranches : Obligations.LengthByteBranches := by
  intro b s hst
  rw [exec_row rfl hst, rowEffect]
  by_cases hb : b = 0
  · subst hb; rfl
  · have hpos : b.toNat > 0 := Nat.pos_of_ne_zero fun h => hb (BitVec.eq_of_toNat_eq h)
    rw [if_neg hb, if_pos hpos]; rfl

/-- Settles O40; `rem` and the length of the frame are what the invariants say of `DONE`. -/
theorem terminatorByteCompletesTheFrame : Obligations.TerminatorByteCompletesTheFrame := by
  intro b s hst
  refine ⟨_, exec_row rfl hst, rfl, rfl, rfl, fun hinv => ?_⟩
  have hr : running s = true := by rw [running, hst]; rfl
  have hdone := frameInv_byteEffect b hr hinv
  rw [hst] at hdone
  obtain ⟨⟨hlen, hrem, -⟩, -⟩ := hdone
  exact ⟨hrem, hlen⟩

/-! ### `RXIDLE` -/

/-- R73: below `idle_max` the count of idle polls does not wrap. -/
theorem idle_add_one_toNat {s : State} (h : s.idle.toNat < s.idleMax.toNat) :
    (s.idle + 1).toNat = s.idle.toNat + 1 := by
  have hbound := s.idleMax.isLt
  rw [BitVec.toNat_add]
  exact Nat.mod_eq_of_lt (by simpa using Nat.lt_of_le_of_lt h hbound)

/-- Settles O44. -/
theorem rxidleCountsOrTimesOut : Obligations.RxidleCountsOrTimesOut := by
  intro s hr hlt
  obtain ⟨-, hi, he⟩ | ⟨-, hi, he⟩ | ⟨hhalt, -⟩ := execRxidle_cases s
  · exact ⟨fun _ => ⟨_, he, rfl, rfl, rfl⟩, fun hless => absurd hi hless.ne⟩
  · exact ⟨fun heq => absurd heq hi, fun _ => ⟨s.idle + 1, idle_add_one_toNat hlt, he⟩⟩
  · cases hr.symm.trans hhalt

end Sys2Proof.Machine
end

section
/-! PROOFS. The statements of spec/42_reassembler.md about series of polls: where they leave the block, that idle polls
add up to a time-out, and that below it only the bytes among the answers decide the outcome. -/

namespace Sys2Proof.Machine

/-! ### A series of polls -/

/-- R34: only polls are to come, one for each answer. -/
def withPolls (s : State) (xs : List (Option Byte)) : State :=
  { s with turns := xs.map (fun _ => .poll), transport := xs }

theorem pollWith_eq_withPolls {s : State} (hw : nothingWaiting s) (xs : List (Option Byte)) :
    pollWith s xs = withPolls s xs := by
  obtain ⟨hturns, -, htransport⟩ := hw
  simp only [pollWith, withPolls, hturns, htransport, List.nil_append]

/-- R94 to R106: what one answer does to a running block. -/
def afterAnswer (s : State) (x : Option Byte) : State :=
  match x with
  | some b => rowEffect s.st b (clearIdle s)
  | none => if s.idle.toNat + 1 = s.idleMax.toNat then timeOut s else countIdle s

theorem afterAnswer_none_timeOut {s : State} (h : s.idle.toNat + 1 = s.idleMax.toNat) :
    afterAnswer s none = timeOut s := if_pos h

theorem afterAnswer_none_countIdle {s : State} (h : s.idle.toNat + 1 ≠ s.idleMax.toNat) :
    afterAnswer s none = countIdle s := if_neg h

/-- Where one poll for each answer leaves the block: once it is halted, the answers left stay with the transport (R26,
R95). -/
def afterPolls (s : State) : List (Option Byte) → State
  | [] => withPolls s []
  | x :: xs =>
    if running s = true then afterPolls (returning (afterAnswer s x) .none) xs
    else { s with turns := [], transport := x :: xs, result := .none }

theorem afterPolls_of_running {s : State} (hr : running s = true) (x : Option Byte) (xs : List (Option Byte)) :
    afterPolls s (x :: xs) = afterPolls (returning (afterAnswer s x) .none) xs :=
  if_pos hr

/-- R95: polls leave a halted block as it is, and take no answer. -/
theorem afterPolls_of_halted {s : State} (hr : running s = false) (xs : List (Option Byte)) :
    sameBlock s (afterPolls s xs) ∧ (afterPolls s xs).transport = xs := by
  cases xs with
  | nil => exact ⟨⟨rfl, rfl, rfl, rfl, rfl⟩, rfl⟩
  | cons x xs =>
    rw [afterPolls, hr, if_neg Bool.false_ne_true]
    exact ⟨⟨rfl, rfl, rfl, rfl, rfl⟩, rfl⟩

/-- R32: a row's effect does not depend on the surroundings. -/
theorem rowEffect_withPolls (st : St) (b : Byte) (s : State) (xs : List (Option Byte)) :
    rowEffect st b (withPolls s xs) = withPolls (rowEffect st b s) xs := by
  cases st with
  | awaitStart => exact (apply_ite (withPolls · xs) (b = Config.sync) (accumulate s b _ .inAddress) s).symm
  | inLength => exact (apply_ite (withPolls · xs) (b = 0) (accumulate s b _ .inChecksum) (accumulate s b b _)).symm
  | _ => rfl

/-- R34, R94: the step of a poll that finds a byte. -/
theorem step_poll_byte {s : State} {ts : List Turn} {b : Byte} {rest : List (Option Byte)}
    (hs : s.turns = .poll :: ts) (hr : running s = true) (ht : s.transport = some b :: rest) :
    step s = .next (returning (rowEffect s.st b (clearIdle { s with turns := ts, transport := rest })) .none) := by
  obtain ⟨i, hi, hf⟩ := fetchPoll_byte (s := { s with turns := ts }) hr ht
  exact (step_poll_run hs hf).trans (exec_own_row hi)

/-- R34: a running block's poll takes its answer, and the polls after it are still to come. -/
theorem step_withPolls {s : State} (hr : running s = true) (x : Option Byte) (xs : List (Option Byte)) :
    step (withPolls s (x :: xs)) = .next (withPolls (returning (afterAnswer s x) .none) xs) := by
  cases x with
  | some b =>
    rw [step_poll_byte (s := withPolls s (some b :: xs)) rfl hr rfl]
    exact congrArg (Host.Outcome.next <| returning · .none) (rowEffect_withPolls s.st b (clearIdle s) xs)
  | none =>
    rw [step_poll_zeroBytes (s := withPolls s (none :: xs)) rfl hr rfl]
    obtain ⟨-, hi, he⟩ | ⟨-, hi, he⟩ | ⟨hhalt, -⟩ := execRxidle_cases (withPolls s xs)
    · rw [afterAnswer_none_timeOut (s := s) hi]; exact he
    · rw [afterAnswer_none_countIdle (s := s) hi]; exact he
    · cases hr.symm.trans hhalt

/-- R95: the polls of a halted block pass. -/
theorem reaches_polls_of_halted {s : State} (hr : running s = false) (xs : List (Option Byte)) :
    reaches xs.length { s with turns := xs.map (fun _ => .poll), result := .none }
      { s with turns := [], result := .none } := by
  induction xs with
  | nil => exact reaches_zero.mpr rfl
  | cons x xs ih => exact reaches_succ.mpr ⟨_, step_poll_halted rfl hr, ih⟩

/-- One poll for each answer leaves the block where `afterPolls` says. -/
theorem reaches_withPolls (xs : List (Option Byte)) (s : State) :
    reaches xs.length (withPolls s xs) (afterPolls s xs) := by
  induction xs generalizing s with
  | nil => exact reaches_zero.mpr rfl
  | cons x xs ih =>
    cases hr : running s with
    | true =>
      rw [afterPolls_of_running hr]
      exact reaches_succ.mpr ⟨_, step_withPolls hr x xs, ih _⟩
    | false =>
      rw [afterPolls, hr, if_neg Bool.false_ne_true]
      exact reaches_succ.mpr ⟨_, step_poll_halted rfl hr,
        reaches_polls_of_halted (s := { s with transport := x :: xs }) hr xs⟩

/-- Where nothing else waits, one poll for each answer leads there and nowhere else. -/
theorem reaches_pollWith_iff {s t : State} (hw : nothingWaiting s) (xs : List (Option Byte)) :
    reaches xs.length (pollWith s xs) t ↔ t = afterPolls s xs := by
  rw [pollWith_eq_withPolls hw]
  have h := reaches_withPolls xs s
  exact ⟨fun ht => Host.Outcome.next.inj (ht.symm.trans h), fun ht => ht ▸ h⟩

/-! ### Idle polls -/

/-- What a run has made of the bytes so far: the elements that R111 compares. -/
def sameProgress (s t : State) : Prop := t.st = s.st ∧ t.buf = s.buf ∧ t.rem = s.rem

/-- R106: `k` idle polls that do not reach `idle_max` are counted. -/
theorem afterPolls_idle_counted {k : Nat} {s : State} (hr : running s = true)
    (h : s.idle.toNat + k < s.idleMax.toNat) :
    sameProgress s (afterPolls s (List.replicate k none)) ∧
      (afterPolls s (List.replicate k none)).idle.toNat = s.idle.toNat + k ∧
      (afterPolls s (List.replicate k none)).idleMax = s.idleMax := by
  induction k generalizing s with
  | zero => exact ⟨⟨rfl, rfl, rfl⟩, rfl, rfl⟩
  | succ k ih =>
    have hcount : (countIdle s).idle.toNat = s.idle.toNat + 1 := idle_add_one_toNat (by omega)
    have hstay : afterAnswer s none = countIdle s := afterAnswer_none_countIdle (by omega)
    rw [List.replicate_succ, afterPolls_of_running hr, hstay]
    obtain ⟨hprog, hidle, hmax⟩ := ih (s := returning (countIdle s) .none) hr
      (by rw [returning_idle, hcount, returning_idleMax, countIdle_idleMax]; omega)
    rw [returning_idle, hcount] at hidle
    exact ⟨hprog, by omega, hmax⟩

/-- R106, R95: `k` idle polls that reach `idle_max` end the run, and those left over change nothing. -/
theorem afterPolls_idle_timeOut {k : Nat} {s : State} (hr : running s = true) (hlt : s.idle.toNat < s.idleMax.toNat)
    (h : s.idleMax.toNat ≤ s.idle.toNat + k) : sameBlock (timeOut s) (afterPolls s (List.replicate k none)) := by
  induction k generalizing s with
  | zero => omega
  | succ k ih =>
    rw [List.replicate_succ, afterPolls_of_running hr]
    by_cases hi : s.idle.toNat + 1 = s.idleMax.toNat
    · obtain ⟨hsame, -⟩ := afterPolls_of_halted (s := returning (timeOut s) .none) rfl (List.replicate k none)
      rw [afterAnswer_none_timeOut hi]
      exact hsame
    · have hcount : (countIdle s).idle.toNat = s.idle.toNat + 1 := idle_add_one_toNat hlt
      rw [afterAnswer_none_countIdle hi]
      refine ih (s := returning (countIdle s) .none) hr ?_ ?_ <;>
        (simp only [returning_idle, returning_idleMax, countIdle_idleMax, hcount]; omega)

/-- Settles O54, by induction on the polls, below `idle_max` and up to it. -/
theorem consecutiveIdlePollsTimeOut : Obligations.ConsecutiveIdlePollsTimeOut := by
  intro s k hr hlt hw
  have hreach := (reaches_pollWith_iff hw (List.replicate k none)).mpr rfl
  rw [List.length_replicate] at hreach
  obtain hbelow | habove := Nat.lt_or_ge (s.idle.toNat + k) s.idleMax.toNat
  · obtain ⟨⟨hst, hbuf, hrem⟩, hidle, hmax⟩ := afterPolls_idle_counted hr hbelow
    exact ⟨_, hreach, hmax, fun _ => ⟨hst, hbuf, hrem, hidle⟩, fun habove => absurd hbelow habove.not_gt⟩
  · obtain ⟨hst, hrem, hbuf, hidle, hmax⟩ := afterPolls_idle_timeOut hr hlt habove
    exact ⟨_, hreach, hmax, fun hbelow => absurd hbelow habove.not_gt, fun _ => ⟨hst, hbuf, hrem, hidle⟩⟩

/-! ### Below the timeout -/

/-- R94, R107: a byte clears `idle`, leaves `idle_max`, and does not bring the block to `NO_FRAME`. -/
theorem byteEffect_no_timeOut (b : Byte) {s : State} (hst : s.st ≠ .noFrame) :
    (rowEffect s.st b (clearIdle s)).idle = 0 ∧ (rowEffect s.st b (clearIdle s)).idleMax = s.idleMax ∧
      (rowEffect s.st b (clearIdle s)).st ≠ .noFrame := by
  obtain he | ⟨rem, st, he, hadv⟩ := byteEffect_cases b s
  · rw [he]
    exact ⟨rfl, rfl, hst⟩
  · rw [he]
    exact ⟨rfl, rfl, fun hno => hst (eq_noFrame_of_advancesTo (hno ▸ hadv))⟩

/-- R111: with no `idle_max` consecutive idle polls, no run times out. -/
theorem afterPolls_ne_noFrame {xs : List (Option Byte)} {s : State} (hst : s.st ≠ .noFrame)
    (hlt : s.idle.toNat < s.idleMax.toNat) (hgaps : idleGapsBelow s.idleMax.toNat s.idle.toNat xs = true) :
    (afterPolls s xs).st ≠ .noFrame := by
  induction xs generalizing s with
  | nil => exact hst
  | cons x xs ih =>
    cases hr : running s with
    | false =>
      obtain ⟨hsame, -⟩ := afterPolls_of_halted hr (x :: xs)
      rwa [hsame.st_eq]
    | true =>
      rw [afterPolls_of_running hr]
      cases x with
      | none =>
        simp only [idleGapsBelow, Bool.and_eq_true, decide_eq_true_eq] at hgaps
        obtain ⟨hnext, hrest⟩ := hgaps
        have hcount : (countIdle s).idle.toNat = s.idle.toNat + 1 := idle_add_one_toNat hlt
        rw [afterAnswer_none_countIdle hnext.ne]
        refine ih (s := returning (countIdle s) .none) hst ?_ ?_
        · rw [returning_idle, hcount]; exact hnext
        · rw [returning_idle, hcount]; exact hrest
      | some b =>
        obtain ⟨hidle, hmax, hst'⟩ := byteEffect_no_timeOut b hst
        refine ih (s := returning (rowEffect s.st b (clearIdle s)) .none) hst' ?_ ?_
        · rw [returning_idle, returning_idleMax, hidle, hmax]; exact Nat.zero_lt_of_lt hlt
        · rw [returning_idle, returning_idleMax, hidle, hmax]; exact hgaps

/-! ### Only the bytes decide -/

/-- R111: what bytes alone make of the block; in a halted one they do nothing. -/
def afterBytes (s : State) (bs : List Byte) : State := bs.foldl (fun u b => rowEffect u.st b u) s

theorem afterBytes_append (s : State) (bs cs : List Byte) :
    afterBytes s (bs ++ cs) = afterBytes (afterBytes s bs) cs := List.foldl_append

theorem afterBytes_cons (s : State) (b : Byte) (bs : List Byte) :
    afterBytes s (b :: bs) = afterBytes (rowEffect s.st b s) bs := rfl

/-- R95: no row applies while halted. -/
theorem rowEffect_of_halted {s : State} (hr : running s = false) (b : Byte) : rowEffect s.st b s = s := by
  obtain hst | hst | hst := (running_eq_false_iff s).mp hr <;> rw [hst] <;> rfl

theorem afterBytes_of_halted {s : State} (hr : running s = false) (bs : List Byte) : afterBytes s bs = s := by
  induction bs with
  | nil => rfl
  | cons b bs ih => rw [afterBytes_cons, rowEffect_of_halted hr, ih]

theorem sameProgress_accumulate {s t : State} (h : sameProgress s t) (b : Byte) {rem rem' : Byte} (hrem : rem' = rem)
    (st : St) : sameProgress (accumulate s b rem st) (accumulate t b rem' st) := by
  obtain ⟨-, hbuf, -⟩ := h
  exact ⟨rfl, by rw [accumulate_buf, accumulate_buf, hbuf], hrem⟩

theorem sameProgress_countDown {s t : State} (h : sameProgress s t) (b : Byte) (next : St) :
    sameProgress (countDown s b next) (countDown t b next) := by
  have ⟨hst, _, hrem⟩ := h
  rw [countDown, countDown, hst, hrem]
  exact sameProgress_accumulate h b rfl _

/-- R96 to R104: of the block, a row reads and writes no more than `st`, `buf` and `rem`. -/
theorem sameProgress_rowEffect {s t : State} (b : Byte) (h : sameProgress s t) :
    sameProgress (rowEffect s.st b s) (rowEffect t.st b t) := by
  have ⟨hst, _, hrem⟩ := h
  rw [hst]
  cases s.st with
  | off | done | noFrame => exact h
  | awaitStart =>
    by_cases hb : b = Config.sync
    · simp only [rowEffect, if_pos hb]
      exact sameProgress_accumulate h b rfl _
    · simp only [rowEffect, if_neg hb]
      exact h
  | inLength =>
    by_cases hb : b = 0
    · simp only [rowEffect, if_pos hb]
      exact sameProgress_accumulate h b hrem _
    · simp only [rowEffect, if_neg hb]
      exact sameProgress_accumulate h b rfl _
  | inAddress | inPayload => exact sameProgress_countDown h b _
  | awaitSecondSync | inControl | inChecksum | inEof => exact sameProgress_accumulate h b hrem _

/-- R111: polls that do not end in a time-out make of the block what their bytes alone make of it. -/
theorem sameProgress_afterPolls {xs : List (Option Byte)} {s u : State} (h : sameProgress u s)
    (hend : (afterPolls s xs).st ≠ .noFrame) :
    sameProgress (afterBytes u (answeredBytes xs)) (afterPolls s xs) := by
  induction xs generalizing s u with
  | nil => exact h
  | cons x xs ih =>
    cases hr : running s with
    | false =>
      obtain ⟨⟨hst, hrem, hbuf, -, -⟩, -⟩ := afterPolls_of_halted hr (x :: xs)
      obtain ⟨hst', hbuf', hrem'⟩ := h
      have hu : running u = false := by rwa [running, ← hst']
      rw [afterBytes_of_halted hu]
      exact ⟨hst.trans hst', hbuf.trans hbuf', hrem.trans hrem'⟩
    | true =>
      rw [afterPolls_of_running hr] at hend ⊢
      cases x with
      | some b =>
        have hclear : sameProgress u (clearIdle s) := h
        exact ih (sameProgress_rowEffect b hclear) hend
      | none =>
        by_cases hi : s.idle.toNat + 1 = s.idleMax.toNat
        · rw [afterAnswer_none_timeOut hi] at hend
          obtain ⟨hsame, -⟩ := afterPolls_of_halted (s := returning (timeOut s) .none) rfl xs
          exact absurd hsame.st_eq hend
        · rw [afterAnswer_none_countIdle hi] at hend ⊢
          exact ih (s := returning (countIdle s) .none) h hend

theorem st_ne_noFrame_of_running {s : State} (hr : running s = true) : s.st ≠ .noFrame := by
  intro hst
  rw [running, hst] at hr
  cases hr

/-- Settles O56: both series of answers are compared with their bytes alone. -/
theorem chunkingDoesNotMatter : Obligations.ChunkingDoesNotMatter := by
  refine ⟨fun s xs hr hlt hw hgaps => ?_, fun s t u xs ys _ hw hbytes ht hu htend huend => ?_⟩
  · exact ⟨_, (reaches_pollWith_iff hw xs).mpr rfl, afterPolls_ne_noFrame (st_ne_noFrame_of_running hr) hlt hgaps⟩
  · obtain rfl := (reaches_pollWith_iff hw xs).mp ht
    obtain rfl := (reaches_pollWith_iff hw ys).mp hu
    obtain ⟨hst, hbuf, hrem⟩ := sameProgress_afterPolls (u := s) ⟨rfl, rfl, rfl⟩ htend
    obtain ⟨hst', hbuf', hrem'⟩ := sameProgress_afterPolls (u := s) ⟨rfl, rfl, rfl⟩ huend
    rw [hbytes] at hst hbuf hrem
    exact ⟨hst.trans hst'.symm, hbuf.trans hbuf'.symm, hrem.trans hrem'.symm⟩

end Sys2Proof.Machine
end

section
/-! PROOFS. The statements of spec/42_reassembler.md about whole frames: which bytes a finished run took, and that what
`ENC` builds is reassembled and decoded. -/

namespace Sys2Proof.Machine

/-! ### Which bytes a finished run took -/

/-- R109: the table of the invariants speaks of the block alone. -/
theorem frameProgress_congr {s t : State} (h : sameBlock s t) : frameProgress t ↔ frameProgress s := by
  obtain ⟨hst, hrem, hbuf, hidle, -⟩ := h
  simp only [frameProgress, hst, hrem, hbuf, hidle]

/-- R16: nothing advances to `AWAIT_START`. -/
theorem eq_awaitStart_of_advancesTo {st : St} (h : advancesTo st .awaitStart) : st = .awaitStart := by
  obtain h | ⟨k, -, hk⟩ | ⟨-, h⟩ := h
  · exact h.symm
  · cases hk
  · cases h

/-- R96: inside a frame, a running block appends every byte, and does not fall back to `AWAIT_START`. -/
theorem byteEffect_inFrame {s : State} (b : Byte) (hr : running s = true) (hst : s.st ≠ .awaitStart) :
    (rowEffect s.st b (clearIdle s)).buf = s.buf ++ [b] ∧ (rowEffect s.st b (clearIdle s)).st ≠ .awaitStart := by
  obtain ⟨rem, st, hstores⟩ := rowEffect_stores (st := s.st) (b := b) hr (fun ⟨h, _⟩ => hst h) (clearIdle s)
  obtain hdiscards | ⟨rem', st', he, hadv⟩ := byteEffect_cases b s
  · have hbuf := congrArg State.buf (hdiscards.symm.trans hstores)
    exact absurd hbuf (by simp)
  · rw [he]
    exact ⟨rfl, fun hback => hst (eq_awaitStart_of_advancesTo (hback ▸ hadv))⟩

/-- R110, R26: from inside a frame, a run that ends in `DONE` took the bytes that `buf` has grown by, and left the
others with the transport. -/
theorem afterPolls_bytes_inFrame {bs : List Byte} {s : State} (hst : s.st ≠ .awaitStart) (hp : frameProgress s)
    (hdone : (afterPolls s (bs.map some)).st = .done) :
    ∃ taken rest : List Byte, bs = taken ++ rest ∧ (afterPolls s (bs.map some)).buf = s.buf ++ taken ∧
      (afterPolls s (bs.map some)).transport = rest.map some ∧ frameProgress (afterPolls s (bs.map some)) := by
  induction bs generalizing s with
  | nil => exact ⟨[], [], rfl, (List.append_nil _).symm, rfl, hp⟩
  | cons b bs ih =>
    cases hr : running s with
    | false =>
      obtain ⟨hsame, hrest⟩ := afterPolls_of_halted hr ((b :: bs).map some)
      exact ⟨[], b :: bs, rfl, hsame.buf_eq.trans (List.append_nil _).symm, hrest, (frameProgress_congr hsame).mpr hp⟩
    | true =>
      rw [List.map_cons, afterPolls_of_running hr] at hdone ⊢
      obtain ⟨hbuf, hst'⟩ := byteEffect_inFrame b hr hst
      have hp' : frameProgress (rowEffect s.st b (clearIdle s)) :=
        frameProgress_rowEffect (s := clearIdle s) b rfl (frameProgress_idle 0 hr hp)
      obtain ⟨taken, rest, hbytes, htaken, hleft, hend⟩ :=
        ih (s := returning (rowEffect s.st b (clearIdle s)) .none) hst' hp' hdone
      refine ⟨b :: taken, rest, by rw [hbytes, List.cons_append], ?_, hleft, hend⟩
      exact htaken.trans (by rw [returning_buf, hbuf, List.append_assoc, List.singleton_append])

/-- R97: the first sync begins the frame. -/
theorem rowEffect_awaitStart_sync (s : State) :
    rowEffect .awaitStart Config.sync s = accumulate s Config.sync 6 .inAddress := rfl

/-- R97, R110: from `AWAIT_START`, a run that ends in `DONE` discarded bytes other than `0x68` and then took a frame. -/
theorem afterPolls_bytes_hunting {bs : List Byte} {s : State} (hst : s.st = .awaitStart) (hbuf : s.buf = [])
    (hdone : (afterPolls s (bs.map some)).st = .done) :
    ∃ d rest : List Byte, bs = d ++ (afterPolls s (bs.map some)).buf ++ rest ∧ (∀ b ∈ d, b ≠ Config.sync) ∧
      (afterPolls s (bs.map some)).transport = rest.map some ∧ frameProgress (afterPolls s (bs.map some)) := by
  have hr : running s = true := by rw [running, hst]; rfl
  induction bs generalizing s with
  | nil => cases hst.symm.trans hdone
  | cons b bs ih =>
    rw [List.map_cons, afterPolls_of_running hr, afterAnswer, hst] at hdone ⊢
    by_cases hb : b = Config.sync
    · subst hb
      rw [rowEffect_awaitStart_sync] at hdone ⊢
      have hp : frameProgress (accumulate (clearIdle s) Config.sync 6 .inAddress) := by
        simp [frameProgress, hbuf, byteAt]
      obtain ⟨taken, rest, hbytes, htaken, hleft, hend⟩ :=
        afterPolls_bytes_inFrame (s := returning (accumulate (clearIdle s) Config.sync 6 .inAddress) .none)
          nofun hp hdone
      refine ⟨[], rest, ?_, List.forall_mem_nil _, hleft, hend⟩
      rw [htaken, returning_buf, accumulate_buf, clearIdle_buf, hbuf, hbytes]
      rfl
    · rw [rowEffect_discards ⟨rfl, hb⟩] at hdone ⊢
      obtain ⟨d, rest, hbytes, hd, hleft, hend⟩ := ih (s := returning (clearIdle s) .none) hst hbuf hdone hr
      refine ⟨b :: d, rest, ?_, List.forall_mem_cons.mpr ⟨hb, hd⟩, hleft, hend⟩
      rw [List.cons_append, List.cons_append, ← hbytes]

/-- Settles O57: first the hunt, then the frame; the table of the invariants gives its first byte and its length. -/
theorem finishedRunConsumesExactly : Obligations.FinishedRunConsumesExactly := by
  intro s t bs hst hbuf hw hreach hdone
  rw [← List.length_map (f := some)] at hreach
  obtain rfl := (reaches_pollWith_iff hw (bs.map some)).mp hreach
  obtain ⟨d, rest, hbytes, hd, hleft, hp⟩ := afterPolls_bytes_hunting hst hbuf hdone
  simp only [frameProgress, hdone] at hp
  obtain ⟨hlen, -, -, hsync, -⟩ := hp
  exact ⟨d, rest, hbytes, hd, hsync, hlen, hleft⟩

/-! ### What the bytes of a frame make of the block -/

/-- R97, R148: bytes other than `0x68` are discarded while hunting. -/
theorem afterBytes_noise {bs : List Byte} {s : State} (hst : s.st = .awaitStart) (h : ∀ b ∈ bs, b ≠ Config.sync) :
    afterBytes s bs = s := by
  induction bs with
  | nil => rfl
  | cons b bs ih =>
    obtain ⟨hb, hbs⟩ := List.forall_mem_cons.mp h
    rw [afterBytes_cons, rowEffect_discards ⟨hst, hb⟩, ih hbs]

/-- R98, R102: the bytes of a counted field, all of them, are appended, and `st` moves on. -/
theorem afterBytes_countedField {st next : St} (hrow : ∀ b u, rowEffect st b u = countDown u b next) {q : List Byte}
    (hq : q ≠ []) {s : State} (hst : s.st = st) (hrem : s.rem.toNat = q.length) :
    afterBytes s q = { s with st := next, buf := s.buf ++ q, rem := 0 } := by
  induction q generalizing s with
  | nil => exact absurd rfl hq
  | cons b q ih =>
    rw [afterBytes_cons, hst, hrow]
    cases q with
    | nil =>
      rw [countDown_last b next (rem_sub_one_eq_zero_iff.mpr hrem)]
      rfl
    | cons b' q =>
      rw [List.length_cons, List.length_cons] at hrem
      have hmore : s.rem - 1 ≠ 0 := mt rem_sub_one_eq_zero_iff.mp (by omega)
      have hleft : (s.rem - 1).toNat = (b' :: q).length := by
        rw [rem_sub_one_toNat (by omega), List.length_cons, hrem]; rfl
      rw [countDown_more b next hmore, ih (s := accumulate s b (s.rem - 1) s.st) (List.cons_ne_nil b' q) hst hleft]
      simp only [accumulate, List.append_assoc, List.singleton_append]

/-- R101, R102: the length byte and as many payload bytes as it says, with or without `IN_PAYLOAD`. -/
theorem afterBytes_lengthAndPayload {n : Byte} {q : List Byte} (hq : q.length = n.toNat) {s : State}
    (hst : s.st = .inLength) (hrem : s.rem = 0) :
    afterBytes s (n :: q) = { s with st := .inChecksum, buf := s.buf ++ n :: q, rem := 0 } := by
  rw [afterBytes_cons, hst, rowEffect]
  by_cases hn : n = 0
  · subst hn
    obtain rfl : q = [] := List.eq_nil_of_length_eq_zero hq
    rw [if_pos rfl, hrem]
    rfl
  · have hne : q ≠ [] := fun hnil => hn (BitVec.eq_of_toNat_eq (by rw [← hq, hnil]; rfl))
    rw [if_neg hn, afterBytes_countedField (st := .inPayload) (fun _ _ => rfl) hne rfl hq.symm]
    simp only [accumulate, List.append_assoc, List.singleton_append]

/-- R77: a bare frame, field by field as the reassembler takes it. -/
theorem bareFrame_fields (a : Address) (c n : Byte) (p : List Byte) :
    bareFrame a c n p = [Config.sync] ++ (addressBytes (rev6 a) ++ ([Config.sync, c] ++
      (n :: p.map obfByte ++ [sum8 (frameBody a c n p), Config.term]))) := rfl

/-- R99, R100. -/
theorem afterBytes_syncAndControl {s : State} (hst : s.st = .awaitSecondSync) (b c : Byte) :
    afterBytes s [b, c] = { s with st := .inLength, buf := s.buf ++ [b, c] } := by
  rw [afterBytes_cons, hst]
  simp only [rowEffect, afterBytes, List.foldl_cons, List.foldl_nil, accumulate, List.append_assoc,
    List.singleton_append]

/-- R103, R104. -/
theorem afterBytes_checksumAndTerminator {s : State} (hst : s.st = .inChecksum) (k e : Byte) :
    afterBytes s [k, e] = { s with st := .done, buf := s.buf ++ [k, e] } := by
  rw [afterBytes_cons, hst]
  simp only [rowEffect, afterBytes, List.foldl_cons, List.foldl_nil, accumulate, List.append_assoc,
    List.singleton_append]

/-- R97 to R104, R112: a bare frame takes the block from `AWAIT_START` to `DONE`, with the frame in `buf`. -/
theorem afterBytes_bareFrame {n : Byte} {p : List Byte} (hp : p.length = n.toNat) (a : Address) (c : Byte) {s : State}
    (hst : s.st = .awaitStart) (hbuf : s.buf = []) :
    afterBytes s (bareFrame a c n p) = { s with st := .done, buf := bareFrame a c n p, rem := 0 } := by
  have hsync : afterBytes s [Config.sync] = { s with st := .inAddress, buf := [Config.sync], rem := 6 } := by
    rw [afterBytes_cons, hst, rowEffect_awaitStart_sync, accumulate, hbuf]
    rfl
  have haddr := afterBytes_countedField (st := .inAddress) (next := .awaitSecondSync) (fun _ _ => rfl)
    (q := addressBytes (rev6 a)) (List.cons_ne_nil _ _)
    (s := { s with st := .inAddress, buf := [Config.sync], rem := 6 }) rfl rfl
  have hpay : (p.map obfByte).length = n.toNat := by rw [List.length_map, hp]
  rw [bareFrame_fields, afterBytes_append, hsync, afterBytes_append, haddr, afterBytes_append,
    afterBytes_syncAndControl rfl, afterBytes_append, afterBytes_lengthAndPayload hpay rfl rfl,
    afterBytes_checksumAndTerminator rfl]
  simp only [List.append_assoc]

/-! ### A frame that is encoded, reassembled and decoded -/

/-- R92: `RXSTART m` issued to a halted block, with polls after it: the step begins the run and leaves the polls. -/
theorem step_rxstart_then_polls {s : State} {m : IdleCount} (hw : nothingWaiting s) (hr : running s = false)
    (hm : m ≠ 0) (xs : List (Option Byte)) :
    step (pollWith (issue s (.rxstart m)) xs) = .next (pollWith (returning (beginRun s m) .none) xs) := by
  obtain ⟨hturns, hops, -⟩ := hw
  have hturn : (pollWith (issue s (.rxstart m)) xs).turns = .host :: (pollWith s xs).turns := by
    rw [pollWith_turns, pollWith_turns, issue_turns, hturns]; rfl
  have hbytes : (pollWith (issue s (.rxstart m)) xs).hostOps = encode (.rxstart m) ++ s.hostOps := by
    rw [pollWith_hostOps, issue_hostOps, hops, List.nil_append, List.append_nil]
  have hfetch := fetchHost_encode (s := { pollWith (issue s (.rxstart m)) xs with turns := (pollWith s xs).turns })
    (i := .rxstart m) rfl rfl hbytes
  exact (step_host_run hturn hfetch).trans (exec_rxstart_of_halted (s := pollWith s xs) hm hr)

/-- R5, R112: neither the noise nor the preamble begins a frame. -/
theorem ne_sync_of_mem_noise_preamble {noise : List Byte} (h : ∀ b ∈ noise, b ≠ Config.sync) :
    ∀ b ∈ noise ++ List.replicate 2 Config.pre, b ≠ Config.sync := by
  intro b hb
  obtain hb | hb := List.mem_append.mp hb
  · exact h b hb
  · rw [List.eq_of_mem_replicate hb]; decide

/-- Settles O58: the run does not time out, so its bytes alone decide: the noise and the preamble are discarded, and the
bare frame is taken, which `DEC` decodes. -/
theorem encodedFrameIsReassembledAndDecoded : Obligations.EncodedFrameIsReassembledAndDecoded := by
  intro s m a c n p f noise answers hr hw hm hp henc hnoise hbytes hgaps
  obtain ⟨-, rfl⟩ := eq_encodeFrame_of_exec_enc henc
  have hw' : nothingWaiting (returning (beginRun s m) .none) := hw
  have hpos : 0 < m.toNat := Nat.pos_of_ne_zero fun h => hm (BitVec.eq_of_toNat_eq h)
  have hend : (afterPolls (returning (beginRun s m) .none) answers).st ≠ .noFrame :=
    afterPolls_ne_noFrame nofun hpos hgaps
  have hprog := sameProgress_afterPolls (s := returning (beginRun s m) .none) (u := beginRun s m) ⟨rfl, rfl, rfl⟩ hend
  rw [hbytes, encodeFrame_eq, ← List.append_assoc, afterBytes_append,
    afterBytes_noise rfl (ne_sync_of_mem_noise_preamble hnoise), afterBytes_bareFrame hp a c rfl rfl] at hprog
  obtain ⟨hst, hbuf, -⟩ := hprog
  refine ⟨_, ?_, hst, hbuf, ?_⟩
  · rw [Nat.add_comm]
    exact reaches_succ.mpr ⟨_, step_rxstart_then_polls hw hr hm answers, (reaches_pollWith_iff hw' answers).mpr rfl⟩
  · exact (congrArg (fun g => exec (.dec g) _) hbuf).trans (exec_dec_bareFrame a c n p 0 _)

end Sys2Proof.Machine
end


section
/-! PROOFS. The statement of spec/60_exceptions.md: the block takes no exceptions, and what it refuses is a violation of
its contract. -/

namespace Sys2Proof.Machine

/-- R123: the operation breaks the block's contract in this state; and the one case more that the model's `exec` can be
asked and no step runs, the row of `RXBYTE` of another running state (log entry 9). -/
def breaksContract (i : Instr) (s : State) : Prop :=
  (∃ m, i = .rxstart m ∧ (m = 0 ∨ running s = true)) ∨
    i ∈ [Instr.reservedB, .reservedC, .reservedD, .reservedE, .reservedF] ∨
    (∃ a c n p, i = .enc a c n p ∧ p.length ≠ n.toNat) ∨
    (running s = true ∧ ∃ st b, st ≠ s.st ∧ rxbyteRow st b = some i)

/-- R119, R123: an answer that is a next state, or a refusal for which there is cause. -/
def nextOrRefusedFor (cause : Prop) (answer : Answer) : Prop :=
  (∃ t, answer = .next t) ∨ (cause ∧ ∃ r, answer = .refused r)

theorem nextOrRefusedFor_next (cause : Prop) (t : State) : nextOrRefusedFor cause (.next t) := .inl ⟨t, rfl⟩

theorem nextOrRefusedFor_refused {cause : Prop} (h : cause) (r : Refusal) : nextOrRefusedFor cause (.refused r) :=
  .inr ⟨h, r, rfl⟩

/-- R119: such an answer is no fault. -/
theorem nextOrRefusedFor.ne_fault {cause : Prop} {answer : Answer} (h : nextOrRefusedFor cause answer) (r : Fault) :
    answer ≠ .fault r := by
  obtain ⟨t, rfl⟩ | ⟨-, q, rfl⟩ := h <;> exact nofun

/-- R123: such an answer, when it is a refusal, has its cause. -/
theorem nextOrRefusedFor.cause_of_refused {cause : Prop} {answer : Answer} {r : Refusal}
    (h : nextOrRefusedFor cause answer) (hr : answer = .refused r) : cause := by
  obtain ⟨t, rfl⟩ | ⟨hcause, -⟩ := h
  · cases hr
  · exact hcause

/-- R77, R78: `ENC` is refused for the length of its payload alone. -/
theorem exec_enc_nextOrRefused (a : Address) (c n : Byte) (p : List Byte) (s : State) :
    nextOrRefusedFor (breaksContract (.enc a c n p) s) (exec (.enc a c n p) s) := by
  by_cases hp : p.length = n.toNat
  · rw [exec_enc_of_length hp]
    exact nextOrRefusedFor_next ..
  · rw [exec_enc_of_length_ne hp]
    exact nextOrRefusedFor_refused (.inr (.inr (.inl ⟨a, c, n, p, rfl, hp⟩))) _

/-- R93: `RXSTART` is refused for `m = 0` and while a run is in progress. -/
theorem exec_rxstart_nextOrRefused (m : IdleCount) (s : State) :
    nextOrRefusedFor (breaksContract (.rxstart m) s) (exec (.rxstart m) s) := by
  change nextOrRefusedFor _ (execRxstart m s)
  obtain ⟨hm, he⟩ | ⟨-, hr, he⟩ | ⟨-, -, he⟩ := execRxstart_cases m s <;> rw [he]
  · exact nextOrRefusedFor_refused (.inl ⟨m, rfl, .inl hm⟩) _
  · exact nextOrRefusedFor_refused (.inl ⟨m, rfl, .inr hr⟩) _
  · exact nextOrRefusedFor_next ..

/-- R94, R95: a row of `RXBYTE` is refused in another running state alone. -/
theorem exec_rxbyteRow_nextOrRefused {st : St} {b : Byte} {i : Instr} (hi : rxbyteRow st b = some i) (s : State) :
    nextOrRefusedFor (breaksContract i s) (exec i s) := by
  rw [exec_of_rxbyteRow hi]
  obtain ⟨-, he⟩ | ⟨hne, hr, he⟩ | ⟨-, -, he⟩ := onRow_cases st (rowEffect st b) s <;> rw [he]
  · exact nextOrRefusedFor_next ..
  · exact nextOrRefusedFor_refused (.inr (.inr (.inr ⟨hr, st, b, Ne.symm hne, hi⟩))) _
  · exact nextOrRefusedFor_next ..

/-- R106, R95: `RXIDLE` has a next state in every state. -/
theorem exec_rxidle_next (s : State) : ∃ t, exec .rxidle s = .next t := by
  obtain ⟨-, -, he⟩ | ⟨-, -, he⟩ | ⟨-, he⟩ := execRxidle_cases s <;> exact ⟨_, he⟩

/-- R57, R65, R72, R123: of the operations that the host issues, the codec's other than `ENC` have a next state, and the
reserved selectors are what the contract forbids. -/
theorem exec_hostOp_nextOrRefused {i : Instr} (hi : isHostOp i = true) (s : State) :
    nextOrRefusedFor (breaksContract i s) (exec i s) := by
  cases i with
  | nop | rev6 | obf | deobf | cksum | ckvfy | dec => exact nextOrRefusedFor_next ..
  | enc a c n p => exact exec_enc_nextOrRefused a c n p s
  | rxstart m => exact exec_rxstart_nextOrRefused m s
  | reservedB | reservedC | reservedD | reservedE | reservedF =>
    exact nextOrRefusedFor_refused (.inr (.inl (by decide))) _
  | _ => cases hi

/-- R119, R123: every operation in every state. -/
theorem exec_nextOrRefused (i : Instr) (s : State) : nextOrRefusedFor (breaksContract i s) (exec i s) := by
  obtain hi | rfl | ⟨st, b, hrow⟩ := isHostOp_or_pollOutcome i
  · exact exec_hostOp_nextOrRefused hi s
  · exact .inl (exec_rxidle_next s)
  · exact exec_rxbyteRow_nextOrRefused hrow s

/-- Settles O48: every operation answers a next state, or a refusal for which `breaksContract` is the cause. -/
theorem onlyContractViolationsAreRefused : Obligations.OnlyContractViolationsAreRefused := fun i s =>
  ⟨(exec_nextOrRefused i s).ne_fault, fun _ => (exec_nextOrRefused i s).cause_of_refused⟩

end Sys2Proof.Machine
end

section
/-! PROOFS. The statements of spec/70_reset_and_hazards.md: what `RESET` does in any state, and that noise on the line
keeps a run hunting. -/

namespace Sys2Proof.Machine

/-! ### `RESET` -/

/-- R135: the step of a `RESET`, which asks nothing of the state. -/
theorem step_reset {s : State} {ts : List Turn} (hs : s.turns = .reset :: ts) :
    step s = .next (returning (applyReset { s with turns := ts }) .none) := by
  simp only [step, fetch, hs]

/-- Settles O6: `applyReset` gives the values of R27. -/
theorem resetAppliesInAnyState : Obligations.ResetAppliesInAnyState := fun _ _ hs => step_reset hs

/-! ### Noise while hunting -/

/-- R94, R97: of a byte discarded while hunting, the cleared `idle` is all that the block keeps. -/
theorem afterPolls_discards {s : State} {b : Byte} (hst : s.st = .awaitStart) (hb : b ≠ Config.sync)
    (xs : List (Option Byte)) : afterPolls s (some b :: xs) = afterPolls (returning (clearIdle s) .none) xs := by
  have hr : running s = true := by rw [running, hst]; rfl
  rw [afterPolls_of_running hr, afterAnswer, rowEffect_discards ⟨hst, hb⟩]

/-- R148: any positive number of such bytes does no more than one, clearing `idle` being idempotent. -/
theorem afterPolls_noise {bs : List Byte} {s : State} (hst : s.st = .awaitStart) (hne : bs ≠ [])
    (h : ∀ b ∈ bs, b ≠ Config.sync) :
    afterPolls s (bs.map some) = withPolls (returning (clearIdle s) .none) [] := by
  induction bs generalizing s with
  | nil => exact absurd rfl hne
  | cons b bs ih =>
    obtain ⟨hb, hbs⟩ := List.forall_mem_cons.mp h
    rw [List.map_cons, afterPolls_discards hst hb]
    cases bs with
    | nil => rfl
    | cons c cs => exact ih (s := returning (clearIdle s) .none) hst (List.cons_ne_nil c cs) hbs

/-- Settles O55: the polls lead where `afterPolls` says, which is the state itself with `idle` cleared. -/
theorem noiseKeepsHunting : Obligations.NoiseKeepsHunting := by
  intro s bs hst hw hne hnoise
  have hreach := (reaches_pollWith_iff hw (bs.map some)).mpr rfl
  rw [List.length_map, afterPolls_noise hst hne hnoise] at hreach
  exact ⟨_, hreach, hst, rfl, rfl, rfl, rfl⟩

end Sys2Proof.Machine
end
